-- ==== Sys2Proof/Config.lean ====
section
/-! DEFINITION. What is fixed for the block before reset and never changes during a run
(`00_scope.md` R8, `70_reset_and_hazards.md` R172): the constants the spec gives a single value,
and the parameters it leaves to an implementation, which every operation they touch takes as an
argument. -/

namespace Sys2Proof.Config

/-- `SCALE_IN`: multiplier of the host quantiser in front of the encoder (R8, R90). -/
abbrev scaleIn : Nat := 32767

/-- `CLIP`: largest magnitude before biasing (R8, R80 step 3). -/
abbrev clip : Nat := 32635

/-- `BIAS` = 0x84: value added to the clipped magnitude (R8, R80 step 4). -/
abbrev bias : Nat := 132

/-- `SCALE_OUT`: divisor of the normalisation behind the decoder (R8, R90). -/
abbrev scaleOut : Nat := 32768

/-- The mask the exponent search starts from (R80 step 5). -/
abbrev searchMask : Nat := 0x4000

/-- `W_LIN`: width in bits of the encoder's linear input port (R8, R65). -/
abbrev wLin : Nat := 16

/-- `W_OUT`: width in bits of the decoder's linear output port (R8, R66). -/
abbrev wOut : Nat := 16

/-- `FS`: sample rate of both streams in Hz; informative, no rule depends on it (R8, R180). -/
abbrev fs : Nat := 8000

/-- The parameters of R8 that an implementation may choose. -/
structure Params where
  /-- `FRAME_LEN`: samples per capture cycle. OPEN, any natural number. -/
  frameLen : Nat
  /-- `MAX_BLOCK_LEN`: largest frame or block an operation accepts. OPEN; `none` is unbounded. -/
  maxBlockLen : Option Nat
  /-- `QUEUE_CAP`: largest number of waiting blocks; `none` is unbounded. -/
  queueCap : Option Nat
  /-- `E0_SHIFT`: mantissa right shift used when the exponent is 0 (R80, R91; conflict C1). -/
  e0Shift : Nat
  deriving DecidableEq, Repr

/-- The values this hardware takes (R8): 128 samples per cycle, no length bound, an unbounded
queue, and `E0_SHIFT` = 3, the resolution of conflict C1. -/
def hw : Params := ⟨128, none, none, 3⟩

end Sys2Proof.Config
end

