-- ==== Sys2Proof/Word.lean ====
section
/-! DEFINITION. The words that cross the block's ports and the sequences made of them
(`30_encoding.md` R60, R65 to R68). -/

namespace Sys2Proof

/-- A byte, 0..255: the mu-law byte in its wire form or its packed form (R60, R61). -/
abbrev Byte := BitVec 8

/-- Linear input sample: a `W_LIN` = 16 bit two's complement word (R65). -/
abbrev LinWord := BitVec 16

/-- Linear output sample: a `W_OUT` = 16 bit two's complement word (R66). -/
abbrev OutWord := BitVec 16

/-- A captured block: linear input samples, index 0 the earliest (R45, R71). -/
abbrev Capture := List LinWord

/-- A Frame: wire bytes, one per sample, index 0 first (R67). -/
abbrev Frame := List Byte

/-- A Playback Block: linear output samples, index 0 first, of any content and length (R68). -/
abbrev Block := List OutWord

end Sys2Proof
end

