-- ==== Sys2Proof/Syntax.lean ====
section
/-! DEFINITION. The eight operations with their operands, and an event as it stands on the block's
input ports (`30_encoding.md` R70, R71). -/

namespace Sys2Proof

/-- An operation together with its operand: one constructor per row of `opcode_table.json` (R70),
carrying the operand R71 gives it. -/
inductive Instr where
  /-- FSKIP: a capture cycle without an input block (R101). -/
  | fskip
  /-- ENC: encode one linear sample (R80). -/
  | enc (w : LinWord)
  /-- DEC: decode one wire byte (R85). -/
  | dec (b : Byte)
  /-- FENC: encode one captured block (R100). -/
  | fenc (blk : Capture)
  /-- FDEC: decode one received frame (R102). -/
  | fdec (f : Frame)
  /-- ENQ: enqueue one playback block (R121). -/
  | enq (b : Block)
  /-- DONE: the output device finished the current block (R122). -/
  | done
  /-- CLR: drain the queue on session stop (R123). -/
  | clr
  deriving DecidableEq, Repr

/-- The table's name of an operation (R70). -/
def Instr.mnemonic : Instr → String
  | .fskip => "FSKIP"
  | .enc _ => "ENC"
  | .dec _ => "DEC"
  | .fenc _ => "FENC"
  | .fdec _ => "FDEC"
  | .enq _ => "ENQ"
  | .done => "DONE"
  | .clr => "CLR"

/-- An event as presented at the ports: the code on `op[2:0]` and, beside it, the data port of each
operand type (R70, R71). Which data port belongs to the event is settled by `op`; the others carry
whatever they carry (log entry 2). -/
structure Event where
  /-- The operation code, `op[2:0]`. -/
  op : BitVec 3
  /-- Data port of ENC. -/
  sample : LinWord
  /-- Data port of DEC. -/
  byte : Byte
  /-- Data port of FENC. -/
  samples : Capture
  /-- Data port of FDEC. -/
  frame : Frame
  /-- Data port of ENQ. -/
  block : Block
  deriving DecidableEq, Repr

end Sys2Proof
end

