-- ==== Sys2Proof/WellFormed.lean ====
section
/-! DEFINITION. When an operand may be presented under given parameters. The types already admit
exactly the operands of R71; the one further check is the length bound `MAX_BLOCK_LEN`
(`00_scope.md` R8, decision D10), which this hardware does not have. -/

namespace Sys2Proof

/-- A length is within an optional bound; `none` bounds nothing (R8). -/
def withinBound (bound : Option Nat) (n : Nat) : Bool :=
  match bound with
  | none => true
  | some k => n ≤ k

/-- The operand of an operation is within `MAX_BLOCK_LEN` (R8, D10). -/
def Instr.wellFormed (p : Config.Params) : Instr → Bool
  | .fskip => true
  | .enc _ => true
  | .dec _ => true
  | .fenc blk => withinBound p.maxBlockLen blk.length
  | .fdec f => withinBound p.maxBlockLen f.length
  | .enq b => withinBound p.maxBlockLen b.length
  | .done => true
  | .clr => true

end Sys2Proof
end

