-- ==== Sys2Proof/Decode.lean ====
section
/-! DEFINITION. From an event on the ports to an operation, and back (`30_encoding.md` R70, R71,
R73, R74). Every one of the eight codes is an operation, so decoding is total and there is nothing
to reject: R73 leaves no reserved, illegal or hint encoding. -/

namespace Sys2Proof

/-- The operation an event names: `op[2:0]` read bit 2 first, as the binary column of R70 writes
it, with the operand from the data port that operation owns (R71). -/
def decode (e : Event) : Instr :=
  match e.op.getLsbD 2, e.op.getLsbD 1, e.op.getLsbD 0 with
  | false, false, false => .fskip
  | false, false, true => .enc e.sample
  | false, true, false => .dec e.byte
  | false, true, true => .fenc e.samples
  | true, false, false => .fdec e.frame
  | true, false, true => .enq e.block
  | true, true, false => .done
  | true, true, true => .clr

/-- The code of an operation, from the `op` column of R70. -/
def Instr.code : Instr → BitVec 3
  | .fskip => 0#3
  | .enc _ => 1#3
  | .dec _ => 2#3
  | .fenc _ => 3#3
  | .fdec _ => 4#3
  | .enq _ => 5#3
  | .done => 6#3
  | .clr => 7#3

/-- A code with every data port at zero or empty. -/
def Event.idle (op : BitVec 3) : Event := ⟨op, 0#16, 0#8, [], [], []⟩

/-- An operation as an event on the ports: its code, its operand on the data port of its type, and
the ports it does not use at zero or empty (R70, R71; log entry 2). -/
def encode (i : Instr) : Event :=
  match i with
  | .fskip => Event.idle i.code
  | .enc w => { Event.idle i.code with sample := w }
  | .dec b => { Event.idle i.code with byte := b }
  | .fenc blk => { Event.idle i.code with samples := blk }
  | .fdec f => { Event.idle i.code with frame := f }
  | .enq b => { Event.idle i.code with block := b }
  | .done => Event.idle i.code
  | .clr => Event.idle i.code

/-- The event of a table word: `op[2:0]` is bits 2 to 0 of the word, and as no operand bit is part
of the code word (R71) every data port is at zero or empty. Bits of the word above bit 2 are no
bits of the port (log entry 13). -/
def eventOfTableWord (nbits w : Nat) : Event := Event.idle (BitVec.ofNat 3 (w % 2 ^ nbits))

/-- The instruction decoded from a word of the opcode table. -/
def decodeTableWord (nbits w : Nat) : Option Instr := some (decode (eventOfTableWord nbits w))

end Sys2Proof
end

