-- ==== Sys2Proof/Machine/Operands.lean ====
section
/-! DEFINITION. Width conversions, the bitwise complement, and the fields of the mu-law byte
(`00_scope.md` R9, R10; `30_encoding.md` R60 to R62, R75). -/

namespace Sys2Proof.Machine

/-- `toInt_16(w)`: two's complement reading of a 16-bit pattern (R10). -/
def toInt16 (w : BitVec 16) : Int := w.toInt

/-- `toBits_16(v)`: `v mod 2^16`, the 16-bit pattern of an integer (R10). -/
def toBits16 (v : Int) : BitVec 16 := BitVec.ofInt 16 v

/-- `not8(v) = 255 - v` (R9). -/
def not8 (v : Byte) : Byte := BitVec.ofNat 8 (255 - v.toNat)

/-- `v[hi:lo] = floor(v / 2^lo) mod 2^(hi-lo+1)` (R9). -/
def bits (v hi lo : Nat) : Nat := v / 2 ^ lo % 2 ^ (hi - lo + 1)

/-- Bit 7 of a byte: `sign` of the packed byte (R61), `S` of the wire byte (R60). -/
def signField (b : Byte) : Nat := bits b.toNat 7 7

/-- Bits 6:4 of a byte: `exponent` of the packed byte (R61), `E` of the wire byte (R60). -/
def exponentField (b : Byte) : Nat := bits b.toNat 6 4

/-- Bits 3:0 of a byte: `mantissa` of the packed byte (R61), `M` of the wire byte (R60). -/
def mantissaField (b : Byte) : Nat := bits b.toNat 3 0

/-- `byte = sign | (exponent << 4) | mantissa`, with `sign` already positioned as 0x80 or 0
(R61, R80 step 7). -/
def packFields (sign exponent mantissa : Nat) : Byte :=
  BitVec.ofNat 8 (sign ||| exponent <<< 4 ||| mantissa)

end Sys2Proof.Machine
end

