-- ==== Sys2Proof/Machine/State.lean ====
section
/-! DEFINITION. The state of the block, its reset value, and the reasons a step can stop
(`10_state.md` R22, R33; `00_scope.md` R7; `70_reset_and_hazards.md` R170). -/

namespace Sys2Proof.Machine

/-- The scheduler's two states (R22). -/
inductive SchedState where
  /-- `Idle`: nothing playing. -/
  | idle
  /-- `Playing`: exactly one block rendering to the output device. -/
  | playing
  deriving DecidableEq, Repr

/-- What the block emits, one constructor per output port (R71). -/
inductive Output where
  /-- `ulaw(byte)`, of ENC (R80). -/
  | ulaw (b : Byte)
  /-- `lin(sample)`, of DEC (R85). -/
  | lin (v : OutWord)
  /-- `frame(f)`, of FENC (R100). -/
  | frame (f : Frame)
  /-- `block(blk)`, of FDEC (R102). -/
  | block (b : Block)
  /-- `start(blk)`, of ENQ and DONE (R121, R122). -/
  | start (b : Block)
  deriving DecidableEq, Repr

/-- The state: the scheduler's triple (R22), the run's output list (R7, R12, R33), and the events
the environment has presented and the block has not yet handled (the model's own field, log entry 1;
R6, R50). -/
structure State where
  /-- `st`: Idle or Playing. -/
  st : SchedState
  /-- `cur`: the block rendering to the output device. -/
  cur : Option Block
  /-- `q`: the Playback Queue, head first; unbounded (R23). -/
  q : List Block
  /-- The outputs emitted in this run, earliest first. -/
  outputs : List Output
  /-- Presented events not yet handled, earliest first. -/
  inbox : List Event
  deriving DecidableEq, Repr

/-- Reset (R33, R170): Idle, no current block, empty queue, empty output list; and no event
presented (log entry 1). -/
def State.reset : State := ⟨.idle, none, [], [], []⟩

/-- No operation of the block faults, traps or raises (R150), and there is no address that could be
absent (R40): no fault exists. -/
inductive Fault
  deriving DecidableEq, Repr

/-- Why a step has no meaning. None of these is raised under this hardware's parameters: every event
is accepted (R72, R73, R150). -/
inductive Refusal where
  /-- Raised by `exec` for an operation without a meaning; safe. No arm of this model raises it. -/
  | notModelled (mnemonic : String)
  /-- Raised by FENC, FDEC and ENQ under a finite `MAX_BLOCK_LEN` when the operand is longer (R8,
  D10); safe. Not raised by this hardware, which has no bound. -/
  | operandTooLong
  /-- Raised by ENQ under a finite `QUEUE_CAP` when the queue is full (R43, D9); safe. Not raised by
  this hardware, whose queue is unbounded. -/
  | queueFull
  deriving DecidableEq, Repr

end Sys2Proof.Machine
end

