-- ==== Sys2Proof/Machine/Ops.lean ====
section
/-! DEFINITION. The shared operations over the state: emitting an output, the two queue primitives,
starting the block at the head of the queue, draining, and presenting an event. The block has no
exception to take and none to return from (`60_exceptions.md` R150, R155), so no operation for
either stands here. -/

namespace Sys2Proof.Machine

/-- The result type of a meaning. -/
abbrev Result := Host.Outcome State Fault Refusal

/-- `emit port(v)`: append to the run's output list (R12). -/
def State.emit (s : State) (o : Output) : State := { s with outputs := s.outputs ++ [o] }

/-- `QPush(q, b) = q ++ [b]`: append to the tail (R12, R41). -/
def qPush (q : List Block) (b : Block) : List Block := q ++ [b]

/-- `QPop(q) = (head(q), tail(q))`, defined only for a non-empty queue (R12, R41). -/
def qPop : List Block → Option (Block × List Block)
  | [] => none
  | h :: t => some (h, t)

/-- Enqueue at the tail: `q <- QPush(q, b)` (R121). -/
def State.enqueue (s : State) (b : Block) : State := { s with q := qPush s.q b }

/-- Start the block at the head of the queue: `(h, q) <- QPop(q)`, `cur <- some(h)`,
`st <- Playing`, `emit start(h)` (R121, R122); `otherwise` is the state if the queue is empty. -/
def State.startHead (s : State) (otherwise : State) : State :=
  match qPop s.q with
  | some (h, t) => { s with st := .playing, cur := some h, q := t }.emit (.start h)
  | none => otherwise

/-- `cur <- none ; st <- Idle` (R122). -/
def State.goIdle (s : State) : State := { s with st := .idle, cur := none }

/-- `q <- [] ; cur <- none ; st <- Idle` (R123). -/
def State.drain (s : State) : State := { s.goIdle with q := [] }

/-- Run a continuation if an operand of length `n` is within `MAX_BLOCK_LEN`, else refuse it with no
effect (R8, D10; log entry 6). -/
def withLength (p : Config.Params) (n : Nat) (k : Result) : Result :=
  if withinBound p.maxBlockLen n then k else .refused .operandTooLong

/-- The queue has reached a finite `QUEUE_CAP` (R43); never so for `none`. -/
def queueFull (cap : Option Nat) (q : List Block) : Bool :=
  match cap with
  | none => false
  | some k => k ≤ q.length

/-- Run a continuation unless the queue is full, else refuse with no effect (R43, D9; log entry 7). -/
def withRoom (p : Config.Params) (s : State) (k : Result) : Result :=
  if queueFull p.queueCap s.q then .refused .queueFull else k

/-- Present an event so that it is the next one handled. -/
def State.present (s : State) (e : Event) : State := { s with inbox := e :: s.inbox }

/-- Take an event off the inbox, leaving the rest presented. -/
def State.withInbox (s : State) (es : List Event) : State := { s with inbox := es }

end Sys2Proof.Machine
end

