-- ==== Sys2Proof/Machine/Codec.lean ====
section
/-! DEFINITION. The codec: `ENCf` and `DECf` on mathematical integers, and ENC and DEC that apply
them at the ports (`40_codec.md` R80, R84, R85). Both are stateless (`10_state.md` R20). -/

namespace Sys2Proof.Machine

/-- Step 2 of R80: the sign flag, 0x80 for a negative sample and 0 otherwise. -/
def signFlag (m : Int) : Nat := if m < 0 then 0x80 else 0

/-- Steps 2 to 4 of R80: the exact magnitude, clipped at `CLIP`, plus `BIAS`. The magnitude is the
integer's own, so -32768 does not wrap (R84, D5). -/
def biasedMagnitude (m : Int) : Nat :=
  (if m.natAbs > Config.clip then Config.clip else m.natAbs) + Config.bias

/-- Step 5 of R80: decrement the exponent and halve the mask while the masked bit is clear and the
exponent is above 0. -/
def searchExponent (x mask : Nat) : Nat → Nat
  | 0 => 0
  | e + 1 => if x &&& mask = 0 then searchExponent x (mask >>> 1) e else e + 1

/-- Step 5 from its starting point, exponent 7 and mask 0x4000. -/
def exponentOf (x : Nat) : Nat := searchExponent x Config.searchMask 7

/-- Step 6 of R80 with the shift at exponent 0 as a parameter (R8 `E0_SHIFT`, R91). -/
def mantissaOf (e0 x exponent : Nat) : Nat :=
  x >>> (if exponent = 0 then e0 else exponent + 3) &&& 0x0F

/-- `ENCf` of R80 on every integer, with `E0_SHIFT` as a parameter (R91 is the value 4). -/
def encfAt (e0 : Nat) (m : Int) : Byte :=
  let x := biasedMagnitude m
  let exponent := exponentOf x
  not8 (packFields (signFlag m) exponent (mantissaOf e0 x exponent))

/-- `ENCf` of R80: the encoder function of this hardware, `E0_SHIFT` = 3 (conflict C1). -/
def encf (m : Int) : Byte := encfAt Config.hw.e0Shift m

/-- Step 3 of R85: `((mantissa << 3) + 132) << exponent`, of a packed byte. -/
def reconstruct (p : Byte) : Nat := ((mantissaField p) <<< 3 + Config.bias) <<< exponentField p

/-- `DECf` of R85: complement, take the fields apart, reconstruct, apply the sign and remove the
bias. -/
def decf (b : Byte) : Int :=
  let p := not8 b
  let t := reconstruct p
  if signField p ≠ 0 then (Config.bias : Int) - t else (t : Int) - Config.bias

/-- ENC at the port under given parameters: `emit ulaw(ENCf(toInt_16(w)))` (R80). -/
def encAt (p : Config.Params) (w : LinWord) (s : State) : Result :=
  .next (s.emit (.ulaw (encfAt p.e0Shift (toInt16 w))))

/-- ENC (R80). -/
def execEnc (w : LinWord) (s : State) : Result := encAt Config.hw w s

/-- DEC: `emit lin(toBits_16(DECf(b)))` (R85). -/
def execDec (b : Byte) (s : State) : Result := .next (s.emit (.lin (toBits16 (decf b))))

end Sys2Proof.Machine
end

