-- ==== Sys2Proof/Machine/Frame.lean ====
section
/-! DEFINITION. The frame operations: the codec applied element by element, and the capture cycle
without input (`41_frame.md` R100, R101, R102). All are stateless (`10_state.md` R21). -/

namespace Sys2Proof.Machine

/-- The frame FENC makes of a captured block: `f[i] = ENCf(toInt_16(blk[i]))` (R100), with
`E0_SHIFT` as a parameter. -/
def encodeFrameAt (e0 : Nat) (blk : Capture) : Frame := blk.map (fun w => encfAt e0 (toInt16 w))

/-- The frame this hardware's FENC makes of a captured block (R100). -/
def encodeFrame (blk : Capture) : Frame := encodeFrameAt Config.hw.e0Shift blk

/-- The playback block FDEC makes of a frame: `blk[i] = toBits_16(DECf(f[i]))` (R102). -/
def decodeFrame (f : Frame) : Block := f.map (fun b => toBits16 (decf b))

/-- FENC under given parameters (R100; D10 for a finite `MAX_BLOCK_LEN`). -/
def fencAt (p : Config.Params) (blk : Capture) (s : State) : Result :=
  withLength p blk.length (.next (s.emit (.frame (encodeFrameAt p.e0Shift blk))))

/-- FENC (R100). -/
def execFenc (blk : Capture) (s : State) : Result := fencAt Config.hw blk s

/-- FSKIP: nothing (R101). -/
def execFskip (s : State) : Result := .next s

/-- FDEC under given parameters (R102; D10 for a finite `MAX_BLOCK_LEN`). -/
def fdecAt (p : Config.Params) (f : Frame) (s : State) : Result :=
  withLength p f.length (.next (s.emit (.block (decodeFrame f))))

/-- FDEC (R102). It does not enqueue. -/
def execFdec (f : Frame) (s : State) : Result := fdecAt Config.hw f s

end Sys2Proof.Machine
end

