-- ==== Sys2Proof/Machine/Scheduler.lean ====
section
/-! DEFINITION. The playback scheduler: ENQ, DONE, CLR (`42_scheduler.md` R120 to R123). Each
follows its pseudocode in every state, the ones no run reaches among them (log entry 12). -/

namespace Sys2Proof.Machine

/-- The effect of ENQ: append to the tail; if Idle, start the head, which exists (R121). -/
def enqEffect (b : Block) (s : State) : State :=
  let s' := s.enqueue b
  match s.st with
  | .idle => s'.startHead s'
  | .playing => s'

/-- ENQ under given parameters (R121; D10 for a finite `MAX_BLOCK_LEN`, R43 for a finite
`QUEUE_CAP`). -/
def enqAt (p : Config.Params) (b : Block) (s : State) : Result :=
  withLength p b.length (withRoom p s (.next (enqEffect b s)))

/-- ENQ (R121). -/
def execEnq (b : Block) (s : State) : Result := enqAt Config.hw b s

/-- The effect of DONE: when Playing, start the head of the queue in the same step, or go Idle if
there is none; when Idle, no change (R122). -/
def doneEffect (s : State) : State :=
  match s.st with
  | .playing => s.startHead s.goIdle
  | .idle => s

/-- DONE (R122). -/
def execDone (s : State) : Result := .next (doneEffect s)

/-- CLR (R123). -/
def execClr (s : State) : Result := .next s.drain

end Sys2Proof.Machine
end

