-- ==== Sys2Proof/Machine/Dispatch.lean ====
section
/-! DEFINITION. From an operation to its meaning, one arm per constructor (`30_encoding.md` R70). -/

namespace Sys2Proof.Machine

def exec (i : Instr) (s : State) : Host.Outcome State Fault Refusal :=
  match i with
  | .fskip => Sys2Proof.Machine.execFskip s
  | .enc w => Sys2Proof.Machine.execEnc w s
  | .dec b => Sys2Proof.Machine.execDec b s
  | .fenc blk => Sys2Proof.Machine.execFenc blk s
  | .fdec f => Sys2Proof.Machine.execFdec f s
  | .enq b => Sys2Proof.Machine.execEnq b s
  | .done => Sys2Proof.Machine.execDone s
  | .clr => Sys2Proof.Machine.execClr s

end Sys2Proof.Machine
end

