-- ==== Sys2Proof/Machine/Step.lean ====
section
/-! DEFINITION. One step: the block takes the earliest presented event, decodes it and handles it
completely before it looks at the next (`00_scope.md` R6; `20_memory.md` R47, R50). -/

namespace Sys2Proof.Machine

/-- One step. With no event presented the block holds its state (R6; log entry 3). -/
def step (s : State) : Host.Outcome State Fault Refusal :=
  match s.inbox with
  | [] => .next s
  | e :: rest => exec (decode e) (s.withInbox rest)

/-- The state in which a table word is the next event presented. -/
def State.withFetchWord (s : State) (nbits w : Nat) : State := s.present (eventOfTableWord nbits w)

end Sys2Proof.Machine
end

