-- ==== Sys2Proof/Machine/Flags.lean ====
section
/-! DEFINITION. The block's one flag and its two read-only status outputs, computed from the state
they continuously reflect (`10_state.md` R29, R30; `42_scheduler.md` R128). There is no carry,
overflow, zero or negative flag (R29). -/

namespace Sys2Proof.Machine

/-- `playing`: 1 iff `st = Playing` (R29, R30). -/
def State.playing (s : State) : BitVec 1 :=
  match s.st with
  | .idle => 0#1
  | .playing => 1#1

/-- `qlen = len(q)`: the waiting blocks, not counting `cur` (R30, R128). -/
def State.qlen (s : State) : Nat := s.q.length

/-- The width of the `qlen` output: `ceil(log2(QUEUE_CAP+1))` bits for a finite capacity, none fixed
for the unbounded queue (R30). -/
def qlenWidth : Option Nat → Option Nat
  | none => none
  | some cap => some (Nat.clog 2 (cap + 1))

end Sys2Proof.Machine
end

