-- ==== Sys2Proof/Machine/Pseudo.lean ====
section
/-! DEFINITION. Host behaviour that the spec gives as event sequences: the pseudo-operations
(`30_encoding.md` R77), the messages they come from (R69, R77) and the error classes
(`60_exceptions.md` R151). -/

namespace Sys2Proof.Machine

/-- `RX f`: FDEC, then ENQ of the block FDEC gives (R77). Two events, not one atomic event. -/
def rx (f : Frame) : List Instr := [.fdec f, .enq (decodeFrame f)]

/-- `RXIGN`: no event (R77). -/
def rxign : List Instr := []

/-- `CAPT blk` and `CAPT none`: a capture cycle with and without an input block (R77). -/
def capt : Option Capture → List Instr
  | some blk => [.fenc blk]
  | none => [.fskip]

/-- `STOP`: the part of `stop()` that reaches the block (R77, R160). -/
def stop : List Instr := [.clr]

/-- What the host has of an inbound message when it decides what to present: its `event`, and its
`media.payload` as whole bytes if there is one that decodes (R69, R48, R161(f)). -/
structure InboundMessage where
  /-- The message's `event` string. -/
  event : String
  /-- The payload's bytes; `none` if absent or not decodable. -/
  payload : Option Frame
  deriving DecidableEq, Repr

/-- The events of an inbound message: `RX` of a media message with a payload; none of any other,
which is ignored (R69, R77). -/
def inboundEvents (m : InboundMessage) : List Instr :=
  if m.event = "media" then
    match m.payload with
    | some f => rx f
    | none => rxign
  else rxign

/-- The document's error classes (R151). -/
inductive ErrorClass where
  /-- Device-unavailable. -/
  | deviceUnavailable
  /-- Transport error or close. -/
  | transport
  /-- Malformed inbound message. -/
  | malformedMessage
  /-- Codec-level. -/
  | codecLevel
  deriving DecidableEq, Repr

/-- The event sequences an error class may present to the block (R151): at most a CLR, one CLR, no
event, no event. -/
def errorEvents : ErrorClass → List (List Instr)
  | .deviceUnavailable => [[], [.clr]]
  | .transport => [[.clr]]
  | .malformedMessage => [[]]
  | .codecLevel => [[]]

end Sys2Proof.Machine
end

