-- ==== Sys2Proof/Machine/Reference.lean ====
section
/-! DEFINITION. The float-domain reference functions, outside the block, that the document's
properties are stated with (`40_codec.md` R89, R90; decision D3). -/

namespace Sys2Proof.Machine

/-- A host quantiser `Q(s) = round(s * 32767)` with an open tie rule `ROUND_TIE`: the one property
assumed of it is `|Q(s) - 32767 s| <= 1/2` (R90, D3). -/
def IsQuantiser (Q : ℝ → ℤ) : Prop := ∀ s : ℝ, |(Q s : ℝ) - Config.scaleIn * s| ≤ 1 / 2

/-- `N(v) = v / 32768`, exactly (R90). -/
def normalise (v : Int) : ℚ := (v : ℚ) / Config.scaleOut

/-- The host saturates an integer to the encoder's port range before presenting it (R90,
R161(g)). -/
def saturateToPort (m : Int) : LinWord := toBits16 (max (-32768) (min 32767 m))

/-- The document's `encode(s)`: `ENCf(Q(s))` (R90). -/
def encodeReal (Q : ℝ → ℤ) (s : ℝ) : Byte := encf (Q s)

/-- The document's `decode(b)`: `N(DECf(b))` (R90). -/
def decodeRational (b : Byte) : ℚ := normalise (decf b)

/-- The exponent R80 finds for an integer: the segment of its magnitude (R82, R88). -/
def segmentOf (m : Int) : Nat := exponentOf (biasedMagnitude m)

end Sys2Proof.Machine
end

