-- ==== Sys2Proof/Safety.lean ====
section
/-! DEFINITION. The terms claims about runs are stated in: a run of events (`00_scope.md` R7), the
state invariant (`10_state.md` R24), what a run enqueued and started (`42_scheduler.md` R125), the
two independent halves (`00_scope.md` R2), the event sources and what they owe the block
(`60_exceptions.md` R152, R153, R157, R161). -/

namespace Sys2Proof

/-- The operations that touch no state: ENC, DEC, FENC, FSKIP, FDEC (R51). -/
def Instr.stateless : Instr → Bool
  | .fskip => true
  | .enc _ => true
  | .dec _ => true
  | .fenc _ => true
  | .fdec _ => true
  | .enq _ => false
  | .done => false
  | .clr => false

/-- The operations of the capture half, units 1 and 3: ENC, FENC, FSKIP (R1, R2). The others are the
playback half, units 2, 4 and 5. -/
def Instr.isCapture : Instr → Bool
  | .fskip => true
  | .enc _ => true
  | .dec _ => false
  | .fenc _ => true
  | .fdec _ => false
  | .enq _ => false
  | .done => false
  | .clr => false

/-- Where an operation comes from (R152). By convention only: every source may issue every operation
(R156), so the machine does not look at it. -/
inductive Source where
  /-- The capture device. -/
  | capture
  /-- The transport receive path. -/
  | transport
  /-- The output device. -/
  | outputDevice
  /-- The session controller. -/
  | session
  /-- A test bench, the only source of single-sample events (R152). -/
  | testBench
  deriving DecidableEq, Repr

/-- The source R152 gives each operation. -/
def Instr.source : Instr → Source
  | .fskip => .capture
  | .enc _ => .testBench
  | .dec _ => .testBench
  | .fenc _ => .capture
  | .fdec _ => .transport
  | .enq _ => .transport
  | .done => .outputDevice
  | .clr => .session

end Sys2Proof

namespace Sys2Proof.Machine

/-- The state invariant of R24: (a) `st = Idle` iff `cur = none`; (b) `st = Idle` implies
`q = []`. -/
def State.Inv (s : State) : Prop := (s.st = .idle ↔ s.cur = none) ∧ (s.st = .idle → s.q = [])

/-- The scheduler's triple `(st, cur, q)` (R22). -/
def State.scheduler (s : State) : SchedState × Option Block × List Block := (s.st, s.cur, s.q)

/-- A run: operations applied in order, stopping at the first that has no next state (R7, R50). -/
def execAll : List Instr → State → Result
  | [], s => .next s
  | i :: is, s =>
    match exec i s with
    | .next t => execAll is t
    | .fault r => .fault r
    | .refused r => .refused r

/-- The payloads of the `start` outputs of a list, in order: `S` of R125. -/
def startsOf (outs : List Output) : List Block :=
  outs.filterMap fun o =>
    match o with
    | .start b => some b
    | .ulaw _ => none
    | .lin _ => none
    | .frame _ => none
    | .block _ => none

/-- The operands of the ENQ events of a run, in order: `E` of R125. -/
def enqueuedBy (is : List Instr) : List Block :=
  is.filterMap fun i =>
    match i with
    | .enq b => some b
    | .fskip => none
    | .enc _ => none
    | .dec _ => none
    | .fenc _ => none
    | .fdec _ => none
    | .done => none
    | .clr => none

/-- The outputs of the capture half: `ulaw` and `frame` (R1, R2, R71). -/
def Output.isCapture : Output → Bool
  | .ulaw _ => true
  | .lin _ => false
  | .frame _ => true
  | .block _ => false
  | .start _ => false

/-- A serial order of what several sources present is legal if each source's events keep the order in
which that source issued them; nothing else is fixed (R153). -/
def LegalOrder (issued : Source → List Instr) (order : List (Source × Instr)) : Prop :=
  ∀ src, (order.filter (fun e => e.1 = src)).map (·.2) = issued src

/-- What the capture device delivers in one cycle: an FSKIP, or one FENC of `FRAME_LEN` samples
(R157, R161(h)). -/
def captureDelivery (p : Config.Params) : Instr → Bool
  | .fskip => true
  | .enc _ => false
  | .dec _ => false
  | .fenc blk => blk.length = p.frameLen
  | .fdec _ => false
  | .enq _ => false
  | .done => false
  | .clr => false

/-! ### The output device (R158, R161; outside the block, log entry 16) -/

/-- What the output device has at hand. The blocks handed to it are numbered from 0, so that a
completion can be said to belong to one of them; the block sees no number (R122, D14). -/
inductive DeviceWork where
  /-- Nothing: no completion is to come. -/
  | free
  /-- It renders a block, whose completion it owes (R158, R161(e)). -/
  | rendering (number : Nat) (block : Block)
  /-- A CLR took away the block it was rendering, and no `start` has followed: that block's completion
  may already be in flight (R161(d), R173). -/
  | abandoned (number : Nat)
  deriving DecidableEq, Repr

/-- The output device as the spec describes it: it renders one block at a time (R158). -/
structure Device where
  /-- How many blocks have been handed to it: the number of the next one. -/
  handed : Nat
  /-- What it has at hand. -/
  work : DeviceWork
  deriving DecidableEq, Repr

/-- The number and the content of the block the device renders, if any. -/
def Device.rendering (d : Device) : Option (Nat × Block) :=
  match d.work with
  | .free => none
  | .rendering n b => some (n, b)
  | .abandoned _ => none

/-- The number of the only block whose completion may arrive now: the block being rendered (R161(b)),
or the one a CLR abandoned while no later `start` has been emitted (R161(d)). -/
def Device.due (d : Device) : Option Nat :=
  match d.work with
  | .free => none
  | .rendering n _ => some n
  | .abandoned n => some n

/-- The device after a CLR: it is released, and the completion of a block it was rendering may be in
flight (R160, R161(c), R173). -/
def Device.release (d : Device) : Device :=
  match d.work with
  | .free => d
  | .rendering n _ => { d with work := .abandoned n }
  | .abandoned _ => d

/-- An event of the environment; for a DONE, `answers` is the number of the block whose completion it
is, which does not reach the block (R122, R173). -/
structure EnvEvent where
  /-- What is presented to the block. -/
  instr : Instr
  /-- For a DONE, the number of the block it belongs to. -/
  answers : Nat
  deriving DecidableEq, Repr

/-- What an event means for the device itself: a DONE is the one completion of the block it belongs to,
and no other is to come; a CLR releases the device (R158, R160, R161(b), (c)). -/
def Device.onEvent (d : Device) (e : EnvEvent) : Device :=
  match e.instr with
  | .done => if d.due = some e.answers then { d with work := .free } else d
  | .clr => d.release
  | .fskip => d
  | .enc _ => d
  | .dec _ => d
  | .fenc _ => d
  | .fdec _ => d
  | .enq _ => d

/-- The device accepts a block only when it renders none: `none` is two blocks at once (R158, R161(c),
R173). From here on no completion of an abandoned block may arrive (R161(d)). -/
def Device.onStart (d : Device) (b : Block) : Option Device :=
  match d.rendering with
  | none => some ⟨d.handed + 1, .rendering d.handed b⟩
  | some _ => none

/-- The device takes the `start` outputs of one step in order. -/
def Device.onStarts (d : Device) : List Block → Option Device
  | [] => some d
  | b :: bs => (d.onStart b).bind fun d' => d'.onStarts bs

/-- The duties of R161(b) and (d) on one event: a DONE is the completion of a block that was handed to
the device and has had none, which is the block it renders or, until the next `start`, the one a CLR
took from it. So no DONE comes before its `start`, none twice, and none of an abandoned block after a
later `start`. -/
def EnvEvent.dutiful (e : EnvEvent) (d : Device) : Bool :=
  match e.instr with
  | .done => d.due = some e.answers
  | .clr => true
  | .fskip => true
  | .enc _ => true
  | .dec _ => true
  | .fenc _ => true
  | .fdec _ => true
  | .enq _ => true

/-- The outputs a state has beyond an earlier one's. -/
def newOutputs (s t : State) : List Output := t.outputs.drop s.outputs.length

/-- One step of the block beside the device: `none` if the block has no next state or hands the device
a block while it renders another. -/
def jointStep (e : EnvEvent) (s : State) (d : Device) : Option (State × Device) :=
  match exec e.instr s with
  | .next t => ((d.onEvent e).onStarts (startsOf (newOutputs s t))).map fun d' => (t, d')
  | .fault _ => none
  | .refused _ => none

/-- A run of the block beside the device. -/
def jointRun : List EnvEvent → State → Device → Option (State × Device)
  | [], s, d => some (s, d)
  | e :: es, s, d => (jointStep e s d).bind fun sd => jointRun es sd.1 sd.2

/-- Every event of a run respects the duties at the point where it is presented. -/
def dutifulRun : List EnvEvent → State → Device → Bool
  | [], _, _ => true
  | e :: es, s, d =>
    e.dutiful d &&
      match jointStep e s d with
      | some sd => dutifulRun es sd.1 sd.2
      | none => true

/-- The completions delivered in a run, in order, each as the number of the block it belongs to. -/
def completionsIn (es : List EnvEvent) : List Nat :=
  es.filterMap fun e => if e.instr = .done then some e.answers else none

/-- The first `n` events of an environment that goes on for ever. -/
def envPrefix (env : Nat → EnvEvent) (n : Nat) : List EnvEvent := (List.range n).map env

/-- The duties of R161(b) and (d) on such an environment: every finite part of it respects them. -/
def dutifulForever (env : Nat → EnvEvent) (s : State) (d : Device) : Prop :=
  ∀ n, dutifulRun (envPrefix env n) s d = true

/-- The duty of R161(e): whenever the device renders a block, its completion is delivered later, or a
CLR intervenes. -/
def CompletionsAreDelivered (env : Nat → EnvEvent) (s : State) (d : Device) : Prop :=
  ∀ (n : Nat) (t : State) (d' : Device) (k : Nat) (b : Block),
    jointRun (envPrefix env n) s d = some (t, d') → d'.rendering = some (k, b) →
    ∃ m, n ≤ m ∧ (env m = ⟨.done, k⟩ ∨ (env m).instr = .clr)

/-- The device renders exactly the block the scheduler holds as current (R124, R174). -/
def DeviceAgrees (s : State) (d : Device) : Prop := d.rendering.map (·.2) = s.cur

end Sys2Proof.Machine
end

