-- ==== Sys2Proof/Certificates/Slice0/Obligations.lean ====
section
/-! DEFINITION. The statements for the provers. Each docstring names the rule of spec/ it comes
from, says where that rule is the spec's own decision or derivation and not the source's words, and
names the log entry where it rests on a choice of the model. -/

open Sys2Proof Sys2Proof.Machine

/-! ### Codes, events and steps -/

/-- R70 (codes and port are the spec's decision D6): the eight codes of the table are the eight
operations, and no code is reserved. -/
def Obligations.TableCodesAreTheirOperations : Prop :=
  (decodeTableWord 8 0).map Instr.mnemonic = some "FSKIP" ∧
  (decodeTableWord 8 1).map Instr.mnemonic = some "ENC" ∧
  (decodeTableWord 8 2).map Instr.mnemonic = some "DEC" ∧
  (decodeTableWord 8 3).map Instr.mnemonic = some "FENC" ∧
  (decodeTableWord 8 4).map Instr.mnemonic = some "FDEC" ∧
  (decodeTableWord 8 5).map Instr.mnemonic = some "ENQ" ∧
  (decodeTableWord 8 6).map Instr.mnemonic = some "DONE" ∧
  (decodeTableWord 8 7).map Instr.mnemonic = some "CLR"

/-- R70, R71: an event is an operation exactly when it carries that operation's code and, on the
data port the operation owns, that operand. That there is one data port per operand type is the
model's choice (log entry 2). -/
def Obligations.DecodeReadsTheCodeAndItsPort : Prop :=
  ∀ (e : Event) (i : Instr), decode e = i ↔
    e.op = i.code ∧
      match i with
      | .fskip => True
      | .enc w => e.sample = w
      | .dec b => e.byte = b
      | .fenc blk => e.samples = blk
      | .fdec f => e.frame = f
      | .enq b => e.block = b
      | .done => True
      | .clr => True

/-- Decoding an encoded operation gives it back with its operand, whatever the operand, and encoding
a decoded event keeps its code (R70, R71, R74). -/
def Obligations.DecodeOfEncodeIsTheOperation : Prop :=
  (∀ i : Instr, decode (encode i) = i) ∧ (∀ e : Event, (encode (decode e)).op = e.op)

/-- R6, R47, R50: a step handles the earliest presented event, as the operation it decodes to, on
the state without that event; with no event presented it holds the state (log entry 3). -/
def Obligations.StepHandlesTheEarliestEvent : Prop :=
  (∀ (s : State) (e : Event) (rest : List Event) (i : Instr), s.inbox = e :: rest → decode e = i →
    step s = exec i { s with inbox := rest }) ∧
  (∀ s : State, s.inbox = [] → step s = .next s)

/-- R150: no operation, in any state and with any operand, faults, refuses or stalls; and so no step
does. -/
def Obligations.NoOperationFaultsOrRefuses : Prop :=
  (∀ (i : Instr) (s : State), ∃ t, exec i s = .next t) ∧ (∀ s : State, ∃ t, step s = .next t)

/-- R7, R50: as many steps as there are events presented (log entry 1) is the run of the operations
those events decode to, in the order presented. -/
def Obligations.StepsRunThePresentedEvents : Prop :=
  ∀ s : State, Host.Core.run core s.inbox.length s =
    execAll (s.inbox.map decode) { s with inbox := [] }

/-- R71 (the spec's decisions D6, D7): what each operation may emit and what it leaves alone: at
most one output, of the port the operation owns; the presented events; the scheduler, unless the
operation is ENQ, DONE or CLR. -/
def Obligations.OperationsEmitOnTheirOwnPort : Prop :=
  ∀ (i : Instr) (s : State), ∃ t new, exec i s = .next t ∧ t.outputs = s.outputs ++ new ∧
    t.inbox = s.inbox ∧
    match i with
    | .fskip => new = [] ∧ t.scheduler = s.scheduler
    | .enc _ => (∃ b, new = [.ulaw b]) ∧ t.scheduler = s.scheduler
    | .dec _ => (∃ v, new = [.lin v]) ∧ t.scheduler = s.scheduler
    | .fenc blk => (∃ f, new = [.frame f] ∧ f.length = blk.length) ∧ t.scheduler = s.scheduler
    | .fdec f => (∃ b, new = [.block b] ∧ b.length = f.length) ∧ t.scheduler = s.scheduler
    | .enq _ => if s.st = .idle then ∃ b, new = [.start b] else new = []
    | .done => if s.st = .playing ∧ s.q ≠ [] then ∃ b, new = [.start b] else new = []
    | .clr => new = []

/-! ### The codec -/

/-- R80, R82 (the mantissa shift at exponent 0 is the spec's decision D4, the cells its own
derivation): ENC emits exactly one byte and changes nothing else. The byte is `0xFF - 16e - k`, or
`0x7F - 16e - k` for a negative operand, where segment `e` and mantissa `k` are the cell that holds
the clipped magnitude `a`: `2^(e+7) + k*2^(e+3) - 132 <= a <= 2^(e+7) + (k+1)*2^(e+3) - 133`. -/
def Obligations.EncEmitsTheCodeOfTheCell : Prop :=
  ∀ (w : LinWord) (s : State), ∃ e k : Nat, e ≤ 7 ∧ k ≤ 15 ∧
    2 ^ (e + 7) + k * 2 ^ (e + 3) ≤ min w.toInt.natAbs 32635 + 132 ∧
    min w.toInt.natAbs 32635 + 133 ≤ 2 ^ (e + 7) + (k + 1) * 2 ^ (e + 3) ∧
    exec (.enc w) s = .next { s with
      outputs := s.outputs ++
        [.ulaw (BitVec.ofNat 8 ((if w.toInt < 0 then 0x7F else 0xFF) - 16 * e - k))] }

/-- R81 (the spec's own derivation from R80): for a biased magnitude `x` the highest set bit is at
`h` with `7 <= h <= 14`, the search ends at `h - 7`, which is the largest exponent whose bit is set,
and the mantissa is `floor(x / 2^(exponent+3)) - 16`. -/
def Obligations.ExponentIsTheHighestSetBit : Prop :=
  ∀ x : Nat, 132 ≤ x → x ≤ 32767 →
    7 ≤ Nat.log2 x ∧ Nat.log2 x ≤ 14 ∧ exponentOf x = Nat.log2 x - 7 ∧
    x.testBit (exponentOf x + 7) = true ∧
    (∀ e, e ≤ 7 → x.testBit (e + 7) = true → e ≤ exponentOf x) ∧
    16 ≤ x / 2 ^ (exponentOf x + 3) ∧
    mantissaOf 3 x (exponentOf x) = x / 2 ^ (exponentOf x + 3) - 16

/-- R83(b) (the spec's own derivation): the encoder saturates on every integer, however large. -/
def Obligations.EncoderSaturates : Prop :=
  (∀ m : Int, 32635 ≤ m → encf m = 0x80#8) ∧ (∀ m : Int, m ≤ -32635 → encf m = 0x00#8)

/-- R83(c) (the spec's own derivation): the codes of a non-zero integer and its negative differ in
bit 7 and in no other. -/
def Obligations.EncoderIsSignSymmetric : Prop :=
  ∀ m : Int, m ≠ 0 → encf (-m) = encf m ^^^ 0x80#8

/-- R83(d) (the spec's own derivation): every byte is the code ENC emits for some 16-bit operand. -/
def Obligations.EveryByteIsEmittedByEnc : Prop :=
  ∀ b : Byte, ∃ w : LinWord, ∀ s : State,
    exec (.enc w) s = .next { s with outputs := s.outputs ++ [.ulaw b] }

/-- R83(e) (the spec's own derivation): encoding then decoding is monotone on the integers. -/
def Obligations.RoundTripIsMonotone : Prop :=
  ∀ m m' : Int, m ≤ m' → decf (encf m) ≤ decf (encf m')

/-- R85: DEC emits exactly one sample and changes nothing else. With `p = 255 - b`, its sign bit 7,
its exponent `e` bits 6:4 and its mantissa `k` bits 3:0, `t = ((k << 3) + 132) << e` lies in
132..32256 and the sample is `132 - t` if the sign bit is set and `t - 132` if not, held exactly by
the output word. -/
def Obligations.DecEmitsTheReconstructedSample : Prop :=
  ∀ (b : Byte) (s : State), ∃ (p e k t : Nat) (v : OutWord), p = 255 - b.toNat ∧
    e = p / 16 % 8 ∧ k = p % 16 ∧ t = (k * 8 + 132) * 2 ^ e ∧ 132 ≤ t ∧ t ≤ 32256 ∧
    v.toInt = (if p / 128 = 1 then 132 - (t : Int) else (t : Int) - 132) ∧
    exec (.dec b) s = .next { s with outputs := s.outputs ++ [.lin v] }

/-- R86, R87 (the spec's own derivations from R85): the result lies in -32124..32124 and fits the
output word, both ends are reached, complementing bit 7 of a byte negates its value, and no two
bytes share a value but the two codes of zero. -/
def Obligations.DecoderRangeAndDistinctValues : Prop :=
  decf 0x80#8 = 32124 ∧ decf 0x00#8 = -32124 ∧
  (∀ b : Byte, decf (b ^^^ 0x80#8) = -decf b) ∧
  (∀ b : Byte, -32124 ≤ decf b ∧ decf b ≤ 32124 ∧ (toBits16 (decf b)).toInt = decf b) ∧
  (∀ b b' : Byte, decf b = decf b' →
    b = b' ∨ (b = 0xFF#8 ∧ b' = 0x7F#8) ∨ (b = 0x7F#8 ∧ b' = 0xFF#8)) ∧
  decf 0xFF#8 = 0 ∧ decf 0x7F#8 = 0

/-- R61, R62: the complement is its own inverse and complements each field, and a byte is its fields
packed. -/
def Obligations.ComplementActsOnEachField : Prop :=
  ∀ b : Byte, not8 (not8 b) = b ∧ signField (not8 b) = 1 - signField b ∧
    exponentField (not8 b) = 7 - exponentField b ∧ mantissaField (not8 b) = 15 - mantissaField b ∧
    b.toNat = signField b * 128 + exponentField b * 16 + mantissaField b

/-- R63 (the spec's own derivation): a negative sample has wire bit 7 = 0 and any other has wire bit
7 = 1; wire bytes up to 0x7F decode to values `<= 0` and the others to values `>= 0`; 0x00 is the
most negative code, 0x80 the most positive, and 0xFF and 0x7F are zero. -/
def Obligations.SignConvention : Prop :=
  (∀ m : Int, signField (encf m) = if m < 0 then 0 else 1) ∧
  (∀ b : Byte, b.toNat ≤ 0x7F → decf b ≤ 0) ∧ (∀ b : Byte, 0x80 ≤ b.toNat → 0 ≤ decf b) ∧
  (∀ b : Byte, decf 0x00#8 ≤ decf b ∧ decf b ≤ decf 0x80#8) ∧ decf 0xFF#8 = 0 ∧ decf 0x7F#8 = 0

/-- R88 (bounds by the spec's own derivation): the round trip in the integer domain. The error of an
unclipped integer is within half its cell, and so within the bound of its magnitude; 0 comes back
exactly; a clipped integer comes back as the extreme of its sign; and every byte but 0x7F survives
decoding and encoding. -/
def Obligations.RoundTripErrorBound : Prop :=
  (∀ m : Int, 0 ≤ m → m ≤ 32635 →
    -(2 ^ (segmentOf m + 2) - 1) ≤ decf (encf m) - m ∧
      decf (encf m) - m ≤ 2 ^ (segmentOf m + 2)) ∧
  (∀ m : Int, m < 0 → -32635 ≤ m →
    -2 ^ (segmentOf m + 2) ≤ decf (encf m) - m ∧
      decf (encf m) - m ≤ 2 ^ (segmentOf m + 2) - 1) ∧
  (∀ c ∈ ([(123, 4), (379, 8), (891, 16), (1915, 32), (3963, 64), (8059, 128), (16251, 256),
      (32635, 512)] : List (Int × Int)), ∀ m : Int, |m| ≤ c.1 → |decf (encf m) - m| ≤ c.2) ∧
  decf (encf 0) = 0 ∧
  (∀ m : Int, 32635 < m → decf (encf m) = 32124) ∧
  (∀ m : Int, m < -32635 → decf (encf m) = -32124) ∧
  (∀ b : Byte, b ≠ 0x7F#8 → encf (decf b) = b) ∧ encf (decf 0x7F#8) = 0xFF#8

/-- A second pass through the codec changes no sample value, and no byte but the negative zero
(`95_test_vectors.md` section 2.3). -/
def Obligations.SecondPassChangesNoValue : Prop :=
  ∀ m : Int, decf (encf (decf (encf m))) = decf (encf m) ∧
    (m < -3 ∨ 0 ≤ m → encf (decf (encf m)) = encf m)

/-- R91 (the spec's own derivation): the literal reading of encode step 6 (`E0_SHIFT` = 4), which is
not this hardware's: for `|m| <= 123` its byte is `0xF7 - floor((a+4)/16)`, or the same with 0x77;
it agrees with this hardware's exactly when `|m| >= 116`; it never produces 0xF8..0xFF or
0x78..0x7F; and for `|m| <= 123` it comes back at most 64 off. -/
def Obligations.LiteralReadingOfStepSix : Prop :=
  (∀ m : Int, m.natAbs ≤ 123 → encfAt 4 m =
    BitVec.ofNat 8 ((if m < 0 then 0x77 else 0xF7) - (m.natAbs + 4) / 16)) ∧
  (∀ m : Int, encfAt 4 m = encf m ↔ 116 ≤ m.natAbs) ∧
  (∀ m : Int, (encfAt 4 m).toNat < 0xF8 ∧
    ((encfAt 4 m).toNat < 0x78 ∨ 0x7F < (encfAt 4 m).toNat)) ∧
  (∀ m : Int, m.natAbs ≤ 123 → |decf (encfAt 4 m) - m| ≤ 64) ∧
  encfAt 4 0 = 0xF7#8 ∧ decf 0xF7#8 = 64

/-- R90 (the quantiser is outside the block; decision D3, log entry 9): under every tie rule, the
document's float-domain examples: silence is 0xFF and comes back as 0.0 exactly, 1.0 and 2.0
saturate to one byte, and full scale comes back as 32124/32768. -/
def Obligations.FloatExamplesUnderEveryTieRule : Prop :=
  ∀ Q : ℝ → ℤ, IsQuantiser Q →
    encodeReal Q 0 = 0xFF#8 ∧ decodeRational (encodeReal Q 0) = 0 ∧
    encodeReal Q 1 = 0x80#8 ∧ encodeReal Q 2 = 0x80#8 ∧
    decodeRational (encodeReal Q 1) = 32124 / 32768 ∧
    decodeRational (encodeReal Q (-1)) = -32124 / 32768

/-- R90 (the formula is the spec's own derivation; log entry 9): the float round-trip error of an
unclipped sample is at most the companding error, the quantiser's rounding and the scale asymmetry
together. -/
def Obligations.FloatRoundTripBound : Prop :=
  ∀ (Q : ℝ → ℤ) (s : ℝ), IsQuantiser Q → |Q s| ≤ 32635 →
    |(decodeRational (encodeReal Q s) : ℝ) - s| ≤
      (2 ^ (segmentOf (Q s) + 2) + 1 / 2 + |s|) / 32768

/-- R90, R83(b): a host that saturates an integer to the port before presenting it gets the byte of
the integer itself. -/
def Obligations.SaturatingToThePortKeepsTheByte : Prop :=
  ∀ (m : Int) (s : State), exec (.enc (saturateToPort m)) s =
    .next { s with outputs := s.outputs ++ [.ulaw (encf m)] }

/-! ### The frame operations -/

/-- R100: FENC emits exactly one frame and changes nothing else; the frame has the length of the
operand, and its byte at each index is the byte ENC emits for the sample at that index. -/
def Obligations.FencEncodesEachLane : Prop :=
  ∀ (blk : Capture) (s : State), ∃ f : Frame,
    exec (.fenc blk) s = .next { s with outputs := s.outputs ++ [.frame f] } ∧
    f.length = blk.length ∧
    ∀ (n : Nat) (w : LinWord), blk[n]? = some w →
      ∃ b, f[n]? = some b ∧
        exec (.enc w) s = .next { s with outputs := s.outputs ++ [.ulaw b] }

/-- R102: FDEC emits exactly one block and changes nothing else; the block has the length of the
frame, and its sample at each index is the sample DEC emits for the byte at that index. -/
def Obligations.FdecDecodesEachLane : Prop :=
  ∀ (f : Frame) (s : State), ∃ blk : Block,
    exec (.fdec f) s = .next { s with outputs := s.outputs ++ [.block blk] } ∧
    blk.length = f.length ∧
    ∀ (n : Nat) (b : Byte), f[n]? = some b →
      ∃ v, blk[n]? = some v ∧
        exec (.dec b) s = .next { s with outputs := s.outputs ++ [.lin v] }

/-- R103 (the spec's own derivation): an operand put together from two gives the output put together
from theirs, for FENC and for FDEC, so a lane's output depends on its own input only. -/
def Obligations.FrameOperationsAreLanewise : Prop :=
  (∀ (x y : Capture) (s : State), ∃ f g : Frame,
    exec (.fenc x) s = .next { s with outputs := s.outputs ++ [.frame f] } ∧
    exec (.fenc y) s = .next { s with outputs := s.outputs ++ [.frame g] } ∧
    f.length = x.length ∧
    exec (.fenc (x ++ y)) s = .next { s with outputs := s.outputs ++ [.frame (f ++ g)] }) ∧
  (∀ (x y : Frame) (s : State), ∃ f g : Block,
    exec (.fdec x) s = .next { s with outputs := s.outputs ++ [.block f] } ∧
    exec (.fdec y) s = .next { s with outputs := s.outputs ++ [.block g] } ∧
    f.length = x.length ∧
    exec (.fdec (x ++ y)) s = .next { s with outputs := s.outputs ++ [.block (f ++ g)] })

/-- R104 (the spec's own derivation): a block that is encoded and decoded comes back within the
bound of R88 at every index, and a frame that is decoded and encoded comes back as it was but for
0x7F, which comes back as 0xFF. -/
def Obligations.FrameRoundTrip : Prop :=
  (∀ (blk : Capture) (s : State), ∃ (f : Frame) (blk' : Block),
    exec (.fenc blk) s = .next { s with outputs := s.outputs ++ [.frame f] } ∧
    exec (.fdec f) s = .next { s with outputs := s.outputs ++ [.block blk'] } ∧
    blk'.length = blk.length ∧
    ∀ (n : Nat) (w : LinWord), blk[n]? = some w → ∃ v, blk'[n]? = some v ∧
      v.toInt = decf (encf w.toInt) ∧
      (|w.toInt| ≤ 32635 → |v.toInt - w.toInt| ≤ 2 ^ (segmentOf w.toInt + 2))) ∧
  (∀ (f : Frame) (s : State), ∃ blk : Block,
    exec (.fdec f) s = .next { s with outputs := s.outputs ++ [.block blk] } ∧
    exec (.fenc blk) s = .next { s with
      outputs := s.outputs ++ [.frame (f.map fun b => if b = 0x7F#8 then 0xFF#8 else b)] })

/-- R157, R100, R101: a capture cycle without an input block, an FSKIP, emits nothing; one with an
input block, an FENC of `FRAME_LEN` samples, emits exactly one frame, of `FRAME_LEN` bytes; the
capture device delivers nothing else, and neither touches the scheduler. -/
def Obligations.CaptureCycleEmitsOneFrameOrNone : Prop :=
  ∀ (p : Config.Params) (i : Instr) (s : State), captureDelivery p i = true →
    ∃ t, exec i s = .next t ∧ t.scheduler = s.scheduler ∧
      ((i = .fskip ∧ t.outputs = s.outputs) ∨
        ∃ (blk : Capture) (f : Frame), i = .fenc blk ∧ f.length = p.frameLen ∧
          t.outputs = s.outputs ++ [.frame f])

/-- R101: FSKIP changes nothing and emits nothing, and a run with FSKIP events in it is the run
without them. -/
def Obligations.FskipIsTheAbsenceOfAnEvent : Prop :=
  (∀ s : State, exec .fskip s = .next s) ∧
  (∀ (is : List Instr) (s : State), execAll is s = execAll (is.filter (· ≠ .fskip)) s)

/-! ### The scheduler -/

/-- R33, R170 (the values are the spec's decision D16): the reset state. -/
def Obligations.ResetStateIsIdleAndEmpty : Prop :=
  State.reset.st = .idle ∧ State.reset.cur = none ∧ State.reset.q = [] ∧
  State.reset.playing = 0#1 ∧ State.reset.qlen = 0 ∧ State.reset.outputs = []

/-- R24 (the spec's own derivation): the state invariant holds at reset. -/
def Obligations.InvariantHoldsAtReset : Prop := State.reset.Inv

/-- R24 (the spec's own derivation): whatever is presented, a step from a state that meets the
invariant has a next state, and that state meets it: Idle exactly when no block is current, and
nothing waiting when Idle. -/
def Obligations.EveryStepKeepsTheInvariant : Prop :=
  ∀ s : State, s.Inv → ∃ t, step s = .next t ∧ t.Inv

/-- R120: the transition table, row by row. DONE while Idle is the spec's decision D13, CLR its
decision D12. -/
def Obligations.TransitionTable : Prop :=
  ∀ (s : State),
    (∀ b, s.st = .idle → s.q = [] → exec (.enq b) s = .next { s with
      st := .playing, cur := some b, q := [], outputs := s.outputs ++ [.start b] }) ∧
    (∀ b, s.st = .playing → exec (.enq b) s = .next { s with q := s.q ++ [b] }) ∧
    (∀ h t, s.st = .playing → s.q = h :: t → exec .done s = .next { s with
      cur := some h, q := t, outputs := s.outputs ++ [.start h] }) ∧
    (s.st = .playing → s.q = [] → exec .done s = .next { s with st := .idle, cur := none }) ∧
    (s.st = .idle → exec .done s = .next s) ∧
    (exec .clr s = .next { s with st := .idle, cur := none, q := [] }) ∧
    (∀ i : Instr, i.stateless → ∃ t, exec i s = .next t ∧ t.scheduler = s.scheduler)

/-- R121: ENQ in every state: append at the tail, and if Idle start the block then at the head. It
never refuses. In the states that no run reaches (Idle with blocks waiting) that is the model's choice
(log entry 12). -/
def Obligations.EnqAppendsAndStartsTheHeadWhenIdle : Prop :=
  ∀ (b : Block) (s : State), ∃ h t, s.q ++ [b] = h :: t ∧
    exec (.enq b) s = .next (match s.st with
      | .playing => { s with q := s.q ++ [b] }
      | .idle => { s with st := .playing, cur := some h, q := t,
                          outputs := s.outputs ++ [.start h] })

/-- R171, R123 (the spec's decision D12 and its own derivation): from every state CLR reaches the
scheduler state of reset, emits nothing, leaves the presented events alone, and a second CLR changes
nothing. -/
def Obligations.ClrReachesTheResetState : Prop :=
  ∀ s : State, ∃ t, exec .clr s = .next t ∧ t.scheduler = State.reset.scheduler ∧
    t.outputs = s.outputs ∧ t.inbox = s.inbox ∧ exec .clr t = .next t

/-- R29 (the output is the spec's decision D17, CLR its decision D12): `playing` is 1 exactly when
Playing; ENQ sets it, DONE clears it exactly when the queue is empty, CLR clears it, and no other
operation changes it. -/
def Obligations.PlayingFlagWrites : Prop :=
  (∀ s : State, s.playing = 1#1 ↔ s.st = .playing) ∧
  (∀ (i : Instr) (s : State), ∃ t, exec i s = .next t ∧
    (i.stateless → t.playing = s.playing) ∧
    (∀ b, i = .enq b → t.playing = 1#1) ∧
    (i = .done → t.playing = if s.playing = 1#1 ∧ s.q ≠ [] then 1#1 else 0#1) ∧
    (i = .clr → t.playing = 0#1))

/-- R128 (the spec's own derivation): after N >= 1 blocks are enqueued from reset, N - 1 wait and
`playing` is 1, the first having been started and no other; after a following CLR both outputs are 0
and nothing more was started. -/
def Obligations.StatusAfterEnqueuesAndClr : Prop :=
  ∀ (b : Block) (bs : List Block), ∃ t u,
    execAll ((b :: bs).map .enq) State.reset = .next t ∧
    t.qlen = (b :: bs).length - 1 ∧ t.playing = 1#1 ∧ t.outputs = [.start b] ∧
    exec .clr t = .next u ∧ u.qlen = 0 ∧ u.playing = 0#1 ∧ u.outputs = [.start b]

/-- R125 (the spec's own derivation): over a run without CLR, the blocks started followed by the
blocks waiting are the blocks that were waiting followed by the blocks enqueued: none skipped,
duplicated, cut or reordered. While Playing the current block is the last one started; when Idle
nothing waits. -/
def Obligations.FifoOrder : Prop :=
  ∀ (is : List Instr) (s : State), s.Inv → .clr ∉ is →
    ∃ t new, execAll is s = .next t ∧ t.outputs = s.outputs ++ new ∧
      startsOf new ++ t.q = s.q ++ enqueuedBy is ∧
      (t.st = .playing → t.cur = (s.cur.toList ++ startsOf new).getLast?) ∧
      (t.st = .idle → t.cur = none ∧ t.q = [])

/-- R127, R77 (the spec's own derivation and its decisions D20, D21): in every run without CLR whose
transport events are those of the messages received, whatever completions, capture operations and
single-sample operations stand between them, the samples handed to the output device and the samples
still waiting, in order, are the samples that were waiting and then the decoded bytes of the valid
media messages, in order; an ignored message adds none (log entry 17). -/
def Obligations.ReceivedSamplesPlayInOrder : Prop :=
  ∀ (msgs : List InboundMessage) (is : List Instr) (s : State), s.Inv → .clr ∉ is →
    is.filter (·.source = .transport) = msgs.flatMap inboundEvents →
    ∃ t new, execAll is s = .next t ∧ t.outputs = s.outputs ++ new ∧
      (startsOf new).flatten ++ t.q.flatten = s.q.flatten ++
        ((msgs.filterMap fun m => if m.event = "media" then m.payload else none).flatten.map
          fun b => toBits16 (decf b))

/-- R124 (the spec's own derivation): between two `start` outputs there is a DONE or a CLR: a run
without either emits at most one, and none if a block is playing already. -/
def Obligations.StartsAreSeparatedByDoneOrClr : Prop :=
  ∀ (is : List Instr) (s : State), .done ∉ is → .clr ∉ is →
    ∃ t new, execAll is s = .next t ∧ t.outputs = s.outputs ++ new ∧
      (startsOf new).length ≤ if s.st = .idle then 1 else 0

/-- R126 (the spec's own derivation): no state a run reaches has a block waiting and none playing,
and in every state a run reaches in which a block waits, the completion event itself starts it. -/
def Obligations.PlaybackIsGapless : Prop :=
  ∀ (is : List Instr) (t : State), execAll is State.reset = .next t →
    (t.cur = none → t.q = []) ∧
    (∀ h r, t.q = h :: r → ∃ u, exec .done t = .next u ∧ u.cur = some h ∧ u.q = r ∧
      u.outputs = t.outputs ++ [.start h])

/-- R161(e), R175: if as many completions arrive as blocks are waiting, and no CLR, every one of
those blocks has been started, in order, before any later one. -/
def Obligations.EveryWaitingBlockIsStarted : Prop :=
  ∀ (is : List Instr) (s : State), s.Inv → .clr ∉ is → s.q.length ≤ is.count .done →
    ∃ t new, execAll is s = .next t ∧ t.outputs = s.outputs ++ new ∧ s.q <+: startsOf new

/-- R175: without a completion and without CLR a Playing scheduler stays Playing the same block,
starts nothing, and only lengthens its queue by what is enqueued. -/
def Obligations.LostCompletionStallsPlayback : Prop :=
  ∀ (is : List Instr) (s : State), s.st = .playing → .done ∉ is → .clr ∉ is →
    ∃ t new, execAll is s = .next t ∧ t.outputs = s.outputs ++ new ∧ t.st = .playing ∧
      t.cur = s.cur ∧ t.q = s.q ++ enqueuedBy is ∧ startsOf new = []

/-- R53 (the spec's own derivation; CLR is its decision D12): from Playing, ENQ and DONE in either
order end in the same state and emit the same single `start`; CLR and ENQ do not commute. -/
def Obligations.EnqAndDoneCommute : Prop :=
  (∀ (b : Block) (s : State), s.st = .playing → ∃ t h,
    execAll [.enq b, .done] s = .next t ∧ execAll [.done, .enq b] s = .next t ∧
    t.outputs = s.outputs ++ [.start h]) ∧
  (∀ (b : Block) (s : State), ∃ t u,
    execAll [.clr, .enq b] s = .next t ∧ t.st = .playing ∧ t.cur = some b ∧
    execAll [.enq b, .clr] s = .next u ∧ u.st = .idle)

/-- R177 (CLR is the spec's decision D12): in every state that meets the invariant, Idle or Playing, a
CLR before or after a DONE ends in the same scheduler state, though a DONE before it may start a block
that is abandoned an instant later; an ENQ before it is discarded, after it was started if the
scheduler was Idle; and an ENQ after it starts at once. -/
def Obligations.ClrRaces : Prop :=
  ∀ (b : Block) (s : State), s.Inv → ∃ t u v w,
    execAll [.done, .clr] s = .next t ∧ t.scheduler = (.idle, none, []) ∧
    execAll [.clr, .done] s = .next u ∧ u.scheduler = (.idle, none, []) ∧
    t.outputs = s.outputs ++ s.q.head?.toList.map .start ∧ u.outputs = s.outputs ∧
    execAll [.enq b, .clr] s = .next v ∧ v.scheduler = (.idle, none, []) ∧
    v.outputs = s.outputs ++ (if s.st = .idle then [.start b] else []) ∧
    execAll [.clr, .enq b] s = .next w ∧ w.scheduler = (.playing, some b, []) ∧
    w.outputs = s.outputs ++ [.start b]

/-! ### Order, independence and the environment -/

/-- R52 (the spec's own derivation): a stateless operation has one output list of its own, the same
wherever in whatever run it stands, and taking it out of a run changes nothing else. -/
def Obligations.StatelessOperationCommutes : Prop :=
  ∀ i : Instr, i.stateless → ∃ own : List Output, ∀ (pre post : List Instr) (s : State),
    ∃ (r t : State) (before after : List Output),
      execAll pre s = .next r ∧ r.outputs = s.outputs ++ before ∧
      execAll (pre ++ post) s = .next { t with outputs := s.outputs ++ before ++ after } ∧
      execAll (pre ++ i :: post) s =
        .next { t with outputs := s.outputs ++ before ++ own ++ after }

/-- R2, R51, R153: two runs of the same capture operations and the same playback operations, each in
its own order but interleaved in any two ways, end in the same scheduler state and emit the same
capture outputs and the same playback outputs. -/
def Obligations.CaptureAndPlaybackAreIndependent : Prop :=
  ∀ (is js : List Instr) (s : State),
    is.filter (·.isCapture) = js.filter (·.isCapture) →
    is.filter (!·.isCapture) = js.filter (!·.isCapture) →
    ∃ t u new new', execAll is s = .next t ∧ execAll js s = .next u ∧
      t.scheduler = u.scheduler ∧ t.outputs = s.outputs ++ new ∧ u.outputs = s.outputs ++ new' ∧
      new.filter (·.isCapture) = new'.filter (·.isCapture) ∧
      new.filter (!·.isCapture) = new'.filter (!·.isCapture)

/-- R153, R54 (arbitration is the spec's decision D15, log entry 10): whatever serial order the
events of the sources are taken in, so long as each source's own keep their order and the session
controller stops nothing, blocks are started in the order the transport delivered them. -/
def Obligations.PlayOrderIsArrivalOrderUnderAnyArbitration : Prop :=
  ∀ (issued : Source → List Instr) (order : List (Source × Instr)) (s : State), s.Inv →
    LegalOrder issued order → (∀ e ∈ order, e.2.source = e.1) → issued .session = [] →
    ∃ t new, execAll (order.map (·.2)) s = .next t ∧ t.outputs = s.outputs ++ new ∧
      startsOf new ++ t.q = s.q ++ enqueuedBy (issued .transport)

/-- R161(b), (c), (d), R124, R174: beside an output device whose completions respect the duties,
every run goes through, no block is handed to the device while it renders another, and the device
renders exactly the current block. The device is the model's own rendering of R158 (log entry 16).
-/
def Obligations.DutifulDeviceNeverPlaysTwoBlocks : Prop :=
  ∀ (es : List EnvEvent) (s : State) (d : Device), s.Inv → DeviceAgrees s d →
    dutifulRun es s d = true →
    ∃ t d', jointRun es s d = some (t, d') ∧ t.Inv ∧ DeviceAgrees t d'

/-- R173, R174 (the spec's decision D14): a completion that does not belong to the block being
rendered is taken as its completion: if a block waits, it is handed to a device that is still
rendering (log entry 16). -/
def Obligations.StaleCompletionStartsTwoBlocks : Prop :=
  ∀ (s : State) (d : Device) (n a : Nat) (b h : Block) (r : List Block), s.st = .playing →
    s.q = h :: r → d.rendering = some (n, b) → a ≠ n →
    exec .done s = .next { s with cur := some h, q := r, outputs := s.outputs ++ [.start h] } ∧
    jointStep ⟨.done, a⟩ s d = none

/-- R43 (the spec's decision D9): under a finite `QUEUE_CAP`, ENQ at a full queue is refused, and
otherwise it is this hardware's ENQ. That a queue longer than the capacity is refused too is the
model's choice (log entry 7). -/
def Obligations.FiniteQueueCapRefusesWhenFull : Prop :=
  ∀ (p : Config.Params) (k : Nat) (b : Block) (s : State), p.queueCap = some k →
    p.maxBlockLen = none →
    (k ≤ s.q.length → enqAt p b s = .refused .queueFull) ∧
    (s.q.length < k → enqAt p b s = exec (.enq b) s)

/-- `92_eei_decisions.md` D10: under a finite `MAX_BLOCK_LEN` the three operations on sequences
refuse a longer operand, and accept every other as this hardware does. -/
def Obligations.FiniteLengthBoundRefusesLongerOperands : Prop :=
  ∀ (p : Config.Params) (k : Nat) (s : State), p.maxBlockLen = some k → p.queueCap = none →
    p.e0Shift = 3 →
    (∀ blk : Capture, fencAt p blk s =
      if blk.length ≤ k then exec (.fenc blk) s else .refused .operandTooLong) ∧
    (∀ f : Frame, fdecAt p f s =
      if f.length ≤ k then exec (.fdec f) s else .refused .operandTooLong) ∧
    (∀ b : Block, enqAt p b s =
      if b.length ≤ k then exec (.enq b) s else .refused .operandTooLong)

/-- R161(b), (d) (the spec's decision D14; the device is the model's own rendering, log entry 16): over a
run from reset beside a fresh device whose completions respect the duties, each completion belongs to a
block that the run starts, no block has two, and they come in the order of the starts. That each comes
after its own `start` is `CompletionsComeAfterTheirStarts`. -/
def Obligations.DutifulCompletionsAnswerDistinctStarts : Prop :=
  ∀ (es : List EnvEvent), dutifulRun es State.reset ⟨0, .free⟩ = true →
    ∃ t d', jointRun es State.reset ⟨0, .free⟩ = some (t, d') ∧
      (completionsIn es).Pairwise (· < ·) ∧
      ∀ k ∈ completionsIn es, k < (startsOf t.outputs).length

/-- R161(e), R175 (the spec's decision D14; the device is the model's own rendering, log entry 16): in
an environment that goes on for ever, respects the duties of R161(b) and (d), delivers every completion
it owes and issues no CLR, whatever blocks wait at some point have all been started, in order and
before any other, at some later point. -/
def Obligations.EveryEnqueuedBlockIsEventuallyPlayed : Prop :=
  ∀ (env : Nat → EnvEvent) (s : State) (d : Device), s.Inv → DeviceAgrees s d →
    dutifulForever env s d → CompletionsAreDelivered env s d → (∀ n, (env n).instr ≠ .clr) →
    ∀ n, ∃ m t d₁ u d₂ new, n ≤ m ∧ jointRun (envPrefix env n) s d = some (t, d₁) ∧
      jointRun (envPrefix env m) s d = some (u, d₂) ∧ u.outputs = t.outputs ++ new ∧
      t.q <+: startsOf new

/-- R161(b) (the spec's decision D14; the device is the model's own rendering, log entry 16): over a run
from reset beside a fresh device whose completions respect the duties, when a completion of block `k` is
presented, block `k` (numbered from 0) is among those already started. -/
def Obligations.CompletionsComeAfterTheirStarts : Prop :=
  ∀ (pre post : List EnvEvent) (k : Nat),
    dutifulRun (pre ++ ⟨.done, k⟩ :: post) State.reset ⟨0, .free⟩ = true →
    ∃ u d, jointRun pre State.reset ⟨0, .free⟩ = some (u, d) ∧ k < (startsOf u.outputs).length
end

