-- ==== Sys2Proof/Laws/Codec.lean ====
section
/-! SUPPORT. What the codec's steps give, said once: the complement, the biased magnitude, the exponent
search, the mantissa, and the two codec functions in terms of them. -/

namespace Sys2Proof.Machine

theorem not8_toNat (v : Byte) : (not8 v).toNat = 255 - v.toNat := by
  have := v.isLt
  simp only [not8, BitVec.toNat_ofNat]
  omega

theorem biasedMagnitude_eq (m : Int) : biasedMagnitude m = min m.natAbs 32635 + 132 := by
  unfold biasedMagnitude Config.clip Config.bias
  split <;> omega

theorem biasedMagnitude_range (m : Int) :
    132 ≤ biasedMagnitude m ∧ biasedMagnitude m ≤ 32767 := by
  rw [biasedMagnitude_eq]; omega

theorem land_two_pow_eq_zero_iff (x n : Nat) : x &&& 2 ^ n = 0 ↔ x.testBit n = false := by
  rw [Nat.and_two_pow]
  cases x.testBit n <;> simp

/-- The exponent search from a mask at bit `e + 7`, over an `x` with no higher bit: it ends at the
segment that holds `x`. -/
theorem searchExponent_cell (x e : Nat) (lo : 128 ≤ x) (hi : x < 2 ^ (e + 8)) :
    searchExponent x (2 ^ (e + 7)) e ≤ e ∧
      2 ^ (searchExponent x (2 ^ (e + 7)) e + 7) ≤ x ∧
      x < 2 ^ (searchExponent x (2 ^ (e + 7)) e + 8) := by
  induction e with
  | zero => exact ⟨le_refl _, lo, hi⟩
  | succ e ih =>
    unfold searchExponent
    by_cases hb : x &&& 2 ^ (e + 1 + 7) = 0
    · have hlt : x < 2 ^ (e + 8) := by
        by_contra hge
        have := (land_two_pow_eq_zero_iff x (e + 8)).1 (by simpa [Nat.add_right_comm] using hb)
        rw [Nat.testBit_eq_decide_div_mod_eq] at this
        have hd : x / 2 ^ (e + 8) = 1 := by
          apply Nat.div_eq_of_lt_le
          · omega
          · have : 2 ^ (e + 1 + 8) = 2 * 2 ^ (e + 8) := by rw [← pow_succ']
            omega
        simp [hd] at this
      have hs : 2 ^ (e + 1 + 7) >>> 1 = 2 ^ (e + 7) := by
        rw [Nat.shiftRight_eq_div_pow, Nat.add_right_comm, pow_succ, pow_one]
        exact Nat.mul_div_cancel _ (by omega)
      rw [if_pos hb, hs]
      exact ⟨(ih hlt).1.trans (Nat.le_succ e), (ih hlt).2⟩
    · rw [if_neg hb]
      refine ⟨le_refl _, ?_, hi⟩
      by_contra hlt
      exact hb ((land_two_pow_eq_zero_iff _ _).2 (Nat.testBit_lt_two_pow (by omega)))

/-- The exponent of R80 is the segment of R82 that holds the biased magnitude. -/
theorem exponentOf_cell (x : Nat) (lo : 128 ≤ x) (hi : x < 32768) :
    exponentOf x ≤ 7 ∧ 2 ^ (exponentOf x + 7) ≤ x ∧ x < 2 ^ (exponentOf x + 8) :=
  searchExponent_cell x 7 lo (by simpa using hi)

/-- A segment that holds `x` is the exponent of R80. -/
theorem exponentOf_unique {x e : Nat} (lo : 2 ^ (e + 7) ≤ x) (hi : x < 2 ^ (e + 8)) (he : e ≤ 7) :
    exponentOf x = e := by
  have h1 : 128 ≤ x := le_trans (by simpa using Nat.pow_le_pow_right (n := 2) (by omega) (show 7 ≤ e + 7 by omega)) lo
  have h2 : x < 32768 := lt_of_lt_of_le hi (by simpa using Nat.pow_le_pow_right (n := 2) (by omega) (show e + 8 ≤ 15 by omega))
  obtain ⟨-, l, u⟩ := exponentOf_cell x h1 h2
  have a : e + 7 < exponentOf x + 8 := (Nat.pow_lt_pow_iff_right (by omega)).1 (lt_of_le_of_lt lo u)
  have b : exponentOf x + 7 < e + 8 := (Nat.pow_lt_pow_iff_right (by omega)).1 (lt_of_le_of_lt l hi)
  omega

/-- The mantissa with the shift `exponent + 3` is the four bits below the leading one. -/
theorem mantissaOf_three {x e : Nat} (lo : 2 ^ (e + 7) ≤ x) (hi : x < 2 ^ (e + 8)) :
    mantissaOf 3 x e + 16 = x / 2 ^ (e + 3) ∧ mantissaOf 3 x e ≤ 15 := by
  have hs : (if e = 0 then 3 else e + 3) = e + 3 := by split <;> omega
  have hp : 0 < 2 ^ (e + 3) := by positivity
  have h16 : 16 ≤ x / 2 ^ (e + 3) := by
    rw [Nat.le_div_iff_mul_le hp]
    calc 16 * 2 ^ (e + 3) = 2 ^ (e + 7) := by ring
      _ ≤ x := lo
  have h32 : x / 2 ^ (e + 3) < 32 := by
    rw [Nat.div_lt_iff_lt_mul hp]
    calc x < 2 ^ (e + 8) := hi
      _ = 32 * 2 ^ (e + 3) := by ring
  have hm : mantissaOf 3 x e = x / 2 ^ (e + 3) % 16 := by
    simp only [mantissaOf, hs, Nat.shiftRight_eq_div_pow]
    exact Nat.and_two_pow_sub_one_eq_mod _ 4
  omega

/-- Packing fields within their widths. -/
theorem packFields_toNat (sign e k : Nat) (hs : sign = 0 ∨ sign = 128) (he : e ≤ 7) (hk : k ≤ 15) :
    (packFields sign e k).toNat = sign + 16 * e + k := by
  rcases hs with rfl | rfl <;> interval_cases e <;> interval_cases k <;> rfl

theorem signFlag_eq (m : Int) : signFlag m = if m < 0 then 128 else 0 := rfl

/-- The wire byte of an integer in terms of its segment and mantissa. -/
theorem encf_toNat (m : Int) :
    (encf m).toNat = 255 - ((if m < 0 then 128 else 0) + 16 * exponentOf (biasedMagnitude m) +
      mantissaOf 3 (biasedMagnitude m) (exponentOf (biasedMagnitude m))) := by
  obtain ⟨lo, hi⟩ := biasedMagnitude_range m
  obtain ⟨he, l, u⟩ := exponentOf_cell (biasedMagnitude m) (by omega) (by omega)
  have hk := (mantissaOf_three l u).2
  unfold encf encfAt
  rw [not8_toNat]
  show 255 - (packFields _ _ (mantissaOf 3 _ _)).toNat = _
  rw [packFields_toNat _ _ _ (by unfold signFlag; split <;> simp) he hk, signFlag_eq]

theorem exponentField_le (b : Byte) : exponentField b ≤ 7 := by
  unfold exponentField bits; omega

theorem mantissaField_le (b : Byte) : mantissaField b ≤ 15 := by
  unfold mantissaField bits; omega

/-- The reconstruction of R85 is the midpoint of the cell. -/
theorem reconstruct_eq (p : Byte) :
    reconstruct p = (2 * mantissaField p + 33) * 2 ^ (exponentField p + 2) := by
  simp only [reconstruct, Nat.shiftLeft_eq, Config.bias]
  ring

end Sys2Proof.Machine
end

