-- ==== Sys2Proof/Laws/State.lean ====
section
/-! SUPPORT. One lemma per field per update of the state, so that no proof unfolds a record update. -/

namespace Sys2Proof.Machine

variable (s : State) (o : Output) (b : Block) (e : Event) (es : List Event)

@[simp] theorem State.emit_st : (s.emit o).st = s.st := rfl
@[simp] theorem State.emit_cur : (s.emit o).cur = s.cur := rfl
@[simp] theorem State.emit_q : (s.emit o).q = s.q := rfl
@[simp] theorem State.emit_outputs : (s.emit o).outputs = s.outputs ++ [o] := rfl
@[simp] theorem State.emit_inbox : (s.emit o).inbox = s.inbox := rfl

@[simp] theorem State.enqueue_st : (s.enqueue b).st = s.st := rfl
@[simp] theorem State.enqueue_cur : (s.enqueue b).cur = s.cur := rfl
@[simp] theorem State.enqueue_q : (s.enqueue b).q = s.q ++ [b] := rfl
@[simp] theorem State.enqueue_outputs : (s.enqueue b).outputs = s.outputs := rfl
@[simp] theorem State.enqueue_inbox : (s.enqueue b).inbox = s.inbox := rfl

@[simp] theorem State.goIdle_st : s.goIdle.st = .idle := rfl
@[simp] theorem State.goIdle_cur : s.goIdle.cur = none := rfl
@[simp] theorem State.goIdle_q : s.goIdle.q = s.q := rfl
@[simp] theorem State.goIdle_outputs : s.goIdle.outputs = s.outputs := rfl
@[simp] theorem State.goIdle_inbox : s.goIdle.inbox = s.inbox := rfl

@[simp] theorem State.drain_st : s.drain.st = .idle := rfl
@[simp] theorem State.drain_cur : s.drain.cur = none := rfl
@[simp] theorem State.drain_q : s.drain.q = [] := rfl
@[simp] theorem State.drain_outputs : s.drain.outputs = s.outputs := rfl
@[simp] theorem State.drain_inbox : s.drain.inbox = s.inbox := rfl

@[simp] theorem State.withInbox_st : (s.withInbox es).st = s.st := rfl
@[simp] theorem State.withInbox_cur : (s.withInbox es).cur = s.cur := rfl
@[simp] theorem State.withInbox_q : (s.withInbox es).q = s.q := rfl
@[simp] theorem State.withInbox_outputs : (s.withInbox es).outputs = s.outputs := rfl
@[simp] theorem State.withInbox_inbox : (s.withInbox es).inbox = es := rfl

@[simp] theorem State.present_st : (s.present e).st = s.st := rfl
@[simp] theorem State.present_cur : (s.present e).cur = s.cur := rfl
@[simp] theorem State.present_q : (s.present e).q = s.q := rfl
@[simp] theorem State.present_outputs : (s.present e).outputs = s.outputs := rfl
@[simp] theorem State.present_inbox : (s.present e).inbox = e :: s.inbox := rfl

theorem State.playing_eq_one_iff : s.playing = 1#1 ↔ s.st = .playing := by
  cases h : s.st <;> simp [State.playing, h]

end Sys2Proof.Machine
end

