-- ==== Sys2Proof/Laws/Ops.lean ====
section
/-! SUPPORT. What each shared operation can do, said once. -/

namespace Sys2Proof.Machine

@[simp] theorem qPop_nil : qPop [] = none := rfl
@[simp] theorem qPop_cons (h : Block) (t : List Block) : qPop (h :: t) = some (h, t) := rfl

theorem startHead_of_nil {s r : State} (hq : s.q = []) : s.startHead r = r := by
  simp [State.startHead, hq]

theorem startHead_of_cons {s r : State} {h : Block} {t : List Block} (hq : s.q = h :: t) :
    s.startHead r =
      { s with st := .playing, cur := some h, q := t, outputs := s.outputs ++ [.start h] } := by
  simp [State.startHead, hq, State.emit]

/-- This hardware has no length bound. -/
@[simp] theorem withLength_hw (n : Nat) (k : Result) : withLength Config.hw n k = k := rfl

/-- This hardware has no queue capacity. -/
@[simp] theorem withRoom_hw (s : State) (k : Result) : withRoom Config.hw s k = k := rfl

/-- A length check under a finite bound lets a shorter operand through and refuses a longer one. -/
theorem withLength_finite {p : Config.Params} {k : Nat} (hp : p.maxBlockLen = some k) (n : Nat)
    (r : Result) : withLength p n r = if n ≤ k then r else .refused .operandTooLong := by
  simp [withLength, withinBound, hp]

/-- A capacity check under a finite capacity refuses when the queue has reached it. -/
theorem withRoom_finite {p : Config.Params} {k : Nat} (hp : p.queueCap = some k) (s : State)
    (r : Result) : withRoom p s r = if k ≤ s.q.length then .refused .queueFull else r := by
  simp [withRoom, queueFull, hp]

/-- Everything an enqueue can do: lengthen the queue while Playing, or start the head while Idle. -/
theorem enqEffect_cases (b : Block) (s : State) :
    (s.st = .playing ∧ enqEffect b s = s.enqueue b) ∨
    (s.st = .idle ∧ ∃ h t, s.q ++ [b] = h :: t ∧ enqEffect b s =
      { s with st := .playing, cur := some h, q := t, outputs := s.outputs ++ [.start h] }) := by
  cases hst : s.st with
  | playing => exact .inl ⟨rfl, by simp [enqEffect, hst]⟩
  | idle =>
    refine .inr ⟨rfl, ?_⟩
    cases hq : s.q ++ [b] with
    | nil => simp at hq
    | cons h t =>
      refine ⟨h, t, rfl, ?_⟩
      have hs : (s.enqueue b).q = h :: t := by simpa using hq
      rw [enqEffect, hst]
      exact startHead_of_cons hs

/-- Everything a completion can do: start the next block, go Idle, or nothing. -/
theorem doneEffect_cases (s : State) :
    (s.st = .playing ∧ ∃ h t, s.q = h :: t ∧ doneEffect s =
      { s with cur := some h, q := t, outputs := s.outputs ++ [.start h] }) ∨
    (s.st = .playing ∧ s.q = [] ∧ doneEffect s = s.goIdle) ∨
    (s.st = .idle ∧ doneEffect s = s) := by
  obtain ⟨st, cur, q, outputs, inbox⟩ := s
  cases st with
  | idle => exact .inr (.inr ⟨rfl, rfl⟩)
  | playing =>
    cases q with
    | nil => exact .inr (.inl ⟨rfl, rfl, rfl⟩)
    | cons h t => exact .inl ⟨rfl, h, t, rfl, rfl⟩

end Sys2Proof.Machine
end

