-- ==== Sys2Proof/Laws/Exec.lean ====
section
/-! SUPPORT. Each operation's meaning as an equation on this hardware's parameters, and how runs are
put together. -/

namespace Sys2Proof.Machine

variable (s t : State)

@[simp] theorem exec_fskip_eq : exec .fskip s = .next s := rfl
@[simp] theorem exec_enc_eq (w : LinWord) :
    exec (.enc w) s = .next (s.emit (.ulaw (encf w.toInt))) := rfl
@[simp] theorem exec_dec_eq (b : Byte) :
    exec (.dec b) s = .next (s.emit (.lin (toBits16 (decf b)))) := rfl
@[simp] theorem exec_fenc_eq (blk : Capture) :
    exec (.fenc blk) s = .next (s.emit (.frame (encodeFrame blk))) := rfl
@[simp] theorem exec_fdec_eq (f : Frame) :
    exec (.fdec f) s = .next (s.emit (.block (decodeFrame f))) := rfl
@[simp] theorem exec_enq_eq (b : Block) : exec (.enq b) s = .next (enqEffect b s) := rfl
@[simp] theorem exec_done_eq : exec .done s = .next (doneEffect s) := rfl
@[simp] theorem exec_clr_eq : exec .clr s = .next s.drain := rfl

/-- A meaning does not look at the presented events and does not touch them. -/
theorem exec_withInbox (i : Instr) (es : List Event) (h : exec i s = .next t) :
    exec i (s.withInbox es) = .next (t.withInbox es) := by
  have key : ∀ {a b : State}, (Host.Outcome.next a : Result) = .next b → a = b := by
    intro a b e; injection e
  obtain ⟨st, cur, q, outputs, inbox⟩ := s
  cases i with
  | enq b => have := key h; subst this; cases st <;> cases q <;> rfl
  | done => have := key h; subst this; cases st <;> cases q <;> rfl
  | fskip => have := key h; subst this; rfl
  | enc w => have := key h; subst this; rfl
  | dec b => have := key h; subst this; rfl
  | fenc blk => have := key h; subst this; rfl
  | fdec f => have := key h; subst this; rfl
  | clr => have := key h; subst this; rfl

@[simp] theorem execAll_nil : execAll [] s = .next s := rfl

theorem execAll_cons {i : Instr} (is : List Instr) (h : exec i s = .next t) :
    execAll (i :: is) s = execAll is t := by
  simp [execAll, h]

/-- A run over two lists is the run over the second from where the first ends. -/
theorem execAll_append {is : List Instr} (js : List Instr) (h : execAll is s = .next t) :
    execAll (is ++ js) s = execAll js t := by
  induction is generalizing s with
  | nil => simp at h; simp [h]
  | cons i is ih =>
    cases hi : exec i s with
    | next r =>
      rw [execAll_cons s r is hi] at h
      rw [List.cons_append, execAll_cons s r _ hi]
      exact ih r h
    | fault r => cases r
    | refused r => simp [execAll, hi] at h

@[simp] theorem startsOf_nil : startsOf [] = [] := rfl
@[simp] theorem startsOf_append (a b : List Output) :
    startsOf (a ++ b) = startsOf a ++ startsOf b := List.filterMap_append
@[simp] theorem startsOf_ulaw (b : Byte) : startsOf [.ulaw b] = [] := rfl
@[simp] theorem startsOf_lin (v : OutWord) : startsOf [.lin v] = [] := rfl
@[simp] theorem startsOf_frame (f : Frame) : startsOf [.frame f] = [] := rfl
@[simp] theorem startsOf_block (b : Block) : startsOf [.block b] = [] := rfl
@[simp] theorem startsOf_start (b : Block) : startsOf [.start b] = [b] := rfl

@[simp] theorem enqueuedBy_nil : enqueuedBy [] = [] := rfl
@[simp] theorem enqueuedBy_append (a b : List Instr) :
    enqueuedBy (a ++ b) = enqueuedBy a ++ enqueuedBy b := List.filterMap_append
@[simp] theorem enqueuedBy_enq (b : Block) (is : List Instr) :
    enqueuedBy (.enq b :: is) = b :: enqueuedBy is := rfl
theorem enqueuedBy_cons_of_not_enq {i : Instr} (is : List Instr) (h : ∀ b, i ≠ .enq b) :
    enqueuedBy (i :: is) = enqueuedBy is := by
  cases i with
  | enq b => exact absurd rfl (h b)
  | fskip => rfl
  | enc w => rfl
  | dec b => rfl
  | fenc blk => rfl
  | fdec f => rfl
  | done => rfl
  | clr => rfl

/-- The outputs of one step beyond the state's own. -/
@[simp] theorem newOutputs_of_append (new : List Output) (h : t.outputs = s.outputs ++ new) :
    newOutputs s t = new := by
  simp [newOutputs, h]

end Sys2Proof.Machine
end

