-- ==== Sys2Proof/Laws/Device.lean ====
section
/-! SUPPORT. The output device and runs beside it (R158, R161): what each definition of Safety.lean can
do, and how runs and endless environments are put together. -/

namespace Sys2Proof.Machine

variable (s t : State) (d d' : Device) (e : EnvEvent) (n k a : Nat) (b : Block)

@[simp] theorem Device.rendering_free : (Device.mk n .free).rendering = none := rfl
@[simp] theorem Device.rendering_rendering :
    (Device.mk n (.rendering k b)).rendering = some (k, b) := rfl
@[simp] theorem Device.rendering_abandoned : (Device.mk n (.abandoned k)).rendering = none := rfl

@[simp] theorem Device.due_free : (Device.mk n .free).due = none := rfl
@[simp] theorem Device.due_rendering : (Device.mk n (.rendering k b)).due = some k := rfl
@[simp] theorem Device.due_abandoned : (Device.mk n (.abandoned k)).due = some k := rfl

/-- The completion of the block being rendered is due. -/
theorem Device.due_of_rendering (h : d.rendering = some (k, b)) : d.due = some k := by
  obtain ⟨n, work⟩ := d
  cases work <;> simp_all

@[simp] theorem Device.release_rendering : d.release.rendering = none := by
  obtain ⟨n, work⟩ := d
  cases work <;> rfl
@[simp] theorem Device.release_due : d.release.due = d.due := by
  obtain ⟨n, work⟩ := d
  cases work <;> rfl
@[simp] theorem Device.release_handed : d.release.handed = d.handed := by
  obtain ⟨n, work⟩ := d
  cases work <;> rfl

/-- A completion that is due leaves the device free. -/
theorem Device.onEvent_done_of_due (h : d.due = some a) :
    d.onEvent ⟨.done, a⟩ = ⟨d.handed, .free⟩ := by
  simp [Device.onEvent, h]

@[simp] theorem Device.onEvent_clr : d.onEvent ⟨.clr, a⟩ = d.release := rfl

/-- Only a DONE and a CLR mean anything to the device. -/
theorem Device.onEvent_of_other (hd : e.instr ≠ .done) (hc : e.instr ≠ .clr) : d.onEvent e = d := by
  obtain ⟨i, a⟩ := e
  cases i with
  | done => exact absurd rfl hd
  | clr => exact absurd rfl hc
  | fskip => rfl
  | enc w => rfl
  | dec b => rfl
  | fenc blk => rfl
  | fdec f => rfl
  | enq b => rfl

/-- A device that renders nothing takes the block under the next number. -/
theorem Device.onStart_of_not_rendering (h : d.rendering = none) :
    d.onStart b = some ⟨d.handed + 1, .rendering d.handed b⟩ := by
  simp [Device.onStart, h]

@[simp] theorem Device.onStarts_nil : d.onStarts [] = some d := rfl
@[simp] theorem Device.onStarts_singleton : d.onStarts [b] = d.onStart b := by
  simp [Device.onStarts]

/-- Only a DONE can break the duties of R161(b) and (d). -/
theorem EnvEvent.dutiful_iff : e.dutiful d = true ↔ (e.instr = .done → d.due = some e.answers) := by
  obtain ⟨i, a⟩ := e
  cases i <;> simp [EnvEvent.dutiful]

/-- One joint step: the block's step, and the device taking what that step started. -/
theorem jointStep_of_next (new : List Output) (hx : exec e.instr s = .next t)
    (ho : t.outputs = s.outputs ++ new) :
    jointStep e s d = ((d.onEvent e).onStarts (startsOf new)).map fun d' => (t, d') := by
  simp only [jointStep, hx, newOutputs_of_append s t new ho]

@[simp] theorem jointRun_nil : jointRun [] s d = some (s, d) := rfl

/-- A joint run over two lists is the run over the second from where the first ends. -/
theorem jointRun_append (es fs : List EnvEvent) :
    jointRun (es ++ fs) s d = (jointRun es s d).bind fun sd => jointRun fs sd.1 sd.2 := by
  induction es generalizing s d with
  | nil => rfl
  | cons e es ih => cases h : jointStep e s d <;> simp [jointRun, h, ih]

/-- A run that goes through is dutiful over two lists if it is over each. -/
theorem dutifulRun_append (es fs : List EnvEvent) (h : jointRun es s d = some (t, d')) :
    dutifulRun (es ++ fs) s d = (dutifulRun es s d && dutifulRun fs t d') := by
  induction es generalizing s d with
  | nil => simp at h; simp [dutifulRun, h]
  | cons e es ih =>
    cases hj : jointStep e s d with
    | none => simp [jointRun, hj] at h
    | some sd =>
      have := ih sd.1 sd.2 (by simpa [jointRun, hj] using h)
      simp [dutifulRun, hj, this, Bool.and_assoc]

@[simp] theorem completionsIn_nil : completionsIn [] = [] := rfl
@[simp] theorem completionsIn_append (es fs : List EnvEvent) :
    completionsIn (es ++ fs) = completionsIn es ++ completionsIn fs := List.filterMap_append

@[simp] theorem envPrefix_zero (env : Nat → EnvEvent) : envPrefix env 0 = [] := rfl
theorem envPrefix_succ (env : Nat → EnvEvent) :
    envPrefix env (n + 1) = envPrefix env n ++ [env n] := by
  simp [envPrefix, List.range_succ]

end Sys2Proof.Machine
end

