-- ==== Sys2Proof/Laws/PerInstr.lean ====
section
/-! SUPPORT. Statements about every operation, one lemma per constructor. The family
`TableCode`: an operation's code is that of its row in `opcode_table.json` (`30_encoding.md` R70). -/

namespace Sys2Proof.Laws.TableCode

/-- The rows of the opcode table: mnemonic and code, in the table's order (R70). -/
def rows : List (String × Nat) :=
  [("FSKIP", 0), ("ENC", 1), ("DEC", 2), ("FENC", 3), ("FDEC", 4), ("ENQ", 5), ("DONE", 6),
    ("CLR", 7)]

/-- The event of an operation carries the code of the operation's row. -/
def Statement (i : Instr) : Prop := rows.lookup i.mnemonic = some (encode i).op.toNat

theorem fskip : Statement .fskip := rfl
theorem enc (w : LinWord) : Statement (.enc w) := rfl
theorem dec (b : Byte) : Statement (.dec b) := rfl
theorem fenc (blk : Capture) : Statement (.fenc blk) := rfl
theorem fdec (f : Frame) : Statement (.fdec f) := rfl
theorem enq (b : Block) : Statement (.enq b) := rfl
theorem done : Statement .done := rfl
theorem clr : Statement .clr := rfl

end Sys2Proof.Laws.TableCode
end

