-- ==== Sys2Proof/Machine/Assembly.lean ====
section
/-! DEFINITION. The written form of events and outputs, and reading it (`30_encoding.md` R76, R77).
Text is a list of characters, so that the kernel evaluates it. -/

namespace Sys2Proof.Machine

/-- Text. -/
abbrev Text := List Char

/-- A natural number in decimal (R76). -/
def natText (n : Nat) : Text := Nat.toDigits 10 n

/-- An integer in decimal, with a leading minus sign when negative (R76). -/
def intText (v : Int) : Text := if v < 0 then '-' :: natText v.natAbs else natText v.natAbs

/-- The upper-case hexadecimal digit of a value below 16. -/
def hexDigit (n : Nat) : Char := (Nat.digitChar n).toUpper

/-- A byte as `0x` and two hexadecimal digits (R76). -/
def byteText (b : Byte) : Text := ['0', 'x', hexDigit (b.toNat / 16), hexDigit (b.toNat % 16)]

/-- A 16-bit sample word as its decimal integer (R76). -/
def sampleText (w : BitVec 16) : Text := intText (toInt16 w)

/-- A bracketed, comma-separated list (R76). -/
def seqText {α : Type} (item : α → Text) (l : List α) : Text :=
  '[' :: ([',', ' '].intercalate (l.map item) ++ [']'])

/-- An event: its mnemonic followed by its operand (R76). -/
def eventText : Instr → Text
  | .fskip => ['F', 'S', 'K', 'I', 'P']
  | .enc w => ['E', 'N', 'C', ' '] ++ sampleText w
  | .dec b => ['D', 'E', 'C', ' '] ++ byteText b
  | .fenc blk => ['F', 'E', 'N', 'C', ' '] ++ seqText sampleText blk
  | .fdec f => ['F', 'D', 'E', 'C', ' '] ++ seqText byteText f
  | .enq b => ['E', 'N', 'Q', ' '] ++ seqText sampleText b
  | .done => ['D', 'O', 'N', 'E']
  | .clr => ['C', 'L', 'R']

/-- An output: `-> ulaw(0xCE)`, `-> lin(988)` and so on (R76). -/
def outputText : Output → Text
  | .ulaw b => ['-', '>', ' ', 'u', 'l', 'a', 'w', '('] ++ byteText b ++ [')']
  | .lin v => ['-', '>', ' ', 'l', 'i', 'n', '('] ++ sampleText v ++ [')']
  | .frame f => ['-', '>', ' ', 'f', 'r', 'a', 'm', 'e', '('] ++ seqText byteText f ++ [')']
  | .block b => ['-', '>', ' ', 'b', 'l', 'o', 'c', 'k', '('] ++ seqText sampleText b ++ [')']
  | .start b => ['-', '>', ' ', 's', 't', 'a', 'r', 't', '('] ++ seqText sampleText b ++ [')']

/-- The value of a digit character in a base up to 16. -/
def digitValue (base : Nat) (c : Char) : Option Nat :=
  let n := c.toNat
  let v :=
    if 48 ≤ n ∧ n ≤ 57 then n - 48
    else if 65 ≤ n ∧ n ≤ 70 then n - 55
    else if 97 ≤ n ∧ n ≤ 102 then n - 87
    else base
  if v < base then some v else none

/-- Read digits, most significant first, onto a value read so far. -/
def readDigits (base : Nat) : Nat → Text → Option Nat
  | acc, [] => some acc
  | acc, c :: cs => (digitValue base c).bind fun v => readDigits base (acc * base + v) cs

/-- Read a natural number, decimal or `0x` hexadecimal (R76). -/
def readNat : Text → Option Nat
  | [] => none
  | ['0', 'x'] => none
  | '0' :: 'x' :: cs => readDigits 16 0 cs
  | c :: cs => readDigits 10 0 (c :: cs)

/-- Read an integer, decimal or `0x` hexadecimal, with an optional minus sign (R76). -/
def readInt : Text → Option Int
  | '-' :: cs => (readNat cs).map fun n => -(n : Int)
  | cs => (readNat cs).map fun n => (n : Int)

/-- Read a sample: an integer that a 16-bit two's complement word holds (R65, R66). -/
def readSample (t : Text) : Option (BitVec 16) :=
  (readInt t).bind fun v => if -32768 ≤ v ∧ v ≤ 32767 then some (toBits16 v) else none

/-- Read a byte: an integer in 0..255 (R9). -/
def readByte (t : Text) : Option Byte :=
  (readNat t).bind fun n => if n < 256 then some (BitVec.ofNat 8 n) else none

/-- Cut a text at every occurrence of a character. -/
def cutAt (sep : Char) : Text → List Text
  | [] => [[]]
  | c :: cs =>
    match cutAt sep cs with
    | [] => if c = sep then [[], []] else [[c]]
    | w :: ws => if c = sep then [] :: w :: ws else (c :: w) :: ws

/-- Read a bracketed, comma-separated list, spaces ignored (R76). -/
def readSeq {α : Type} (item : Text → Option α) (t : Text) : Option (List α) :=
  match t.filter (· ≠ ' ') with
  | ['[', ']'] => some []
  | '[' :: cs => if cs.getLast? = some ']' then (cutAt ',' cs.dropLast).mapM item else none
  | _ => none

/-- The first word of a line. -/
def firstWord (t : Text) : Text := t.takeWhile (· ≠ ' ')

/-- What follows the first word of a line and the space after it. -/
def afterFirstWord (t : Text) : Text := (t.dropWhile (· ≠ ' ')).drop 1

/-- Read one line: an event, or a pseudo-operation as the events it abbreviates (R76, R77);
`none` for a line that is neither. -/
def readLine (line : Text) : Option (List Instr) :=
  let word := firstWord line
  let arg := afterFirstWord line
  if word = ['F', 'S', 'K', 'I', 'P'] ∧ arg = [] then some [.fskip]
  else if word = ['E', 'N', 'C'] then (readSample arg).map fun w => [.enc w]
  else if word = ['D', 'E', 'C'] then (readByte arg).map fun b => [.dec b]
  else if word = ['F', 'E', 'N', 'C'] then (readSeq readSample arg).map fun l => [.fenc l]
  else if word = ['F', 'D', 'E', 'C'] then (readSeq readByte arg).map fun l => [.fdec l]
  else if word = ['E', 'N', 'Q'] then (readSeq readSample arg).map fun l => [.enq l]
  else if word = ['D', 'O', 'N', 'E'] ∧ arg = [] then some [.done]
  else if word = ['C', 'L', 'R'] ∧ arg = [] then some [.clr]
  else if word = ['R', 'X'] then (readSeq readByte arg).map rx
  else if word = ['R', 'X', 'I', 'G', 'N'] ∧ arg = [] then some rxign
  else if word = ['C', 'A', 'P', 'T'] ∧ arg = ['n', 'o', 'n', 'e'] then some (capt none)
  else if word = ['C', 'A', 'P', 'T'] then (readSeq readSample arg).map fun l => capt (some l)
  else if word = ['S', 'T', 'O', 'P'] ∧ arg = [] then some stop
  else none

/-- Read a program: one event a line, applied top to bottom (R76). -/
def readProgram (t : Text) : Option (List Instr) :=
  ((cutAt '\n' t).mapM readLine).map List.flatten

end Sys2Proof.Machine
end

