-- ==== Sys2Proof/Tests/Slice0.lean ====
section
/-! SUPPORT. The model's own tests. Expected results are the spec's: the section of spec/ a test takes
them from stands in its docstring. -/

namespace Sys2Proof.Tests

open Sys2Proof.Machine

/-! ### Parameters and words -/

/-- R65, R66: the port widths. -/
theorem test_port_widths : LinWord = BitVec Config.wLin ∧ OutWord = BitVec Config.wOut := ⟨rfl, rfl⟩

/-- `WellFormed`: an operand longer than a finite `MAX_BLOCK_LEN` is ill-formed, for each of the three
operations that take a sequence (R8, D10), and of the same length it is not. -/
theorem test_wellFormed_refuses_long_operands :
    Instr.wellFormed { Config.hw with maxBlockLen := some 1 } (.fenc [0, 0]) = false ∧
    Instr.wellFormed { Config.hw with maxBlockLen := some 1 } (.fdec [0, 0]) = false ∧
    Instr.wellFormed { Config.hw with maxBlockLen := some 1 } (.enq [0, 0]) = false ∧
    Instr.wellFormed { Config.hw with maxBlockLen := some 2 } (.enq [0, 0]) = true := by decide

/-! ### Decoding: each code of R70 written out bit by bit, each with the operand on its port (R71) and
other values on the ports it must not read -/

theorem test_decode_fskip : decode ⟨0b000#3, 1, 2, [3], [4], [5]⟩ = .fskip := by decide
theorem test_decode_enc : decode ⟨0b001#3, 1, 2, [3], [4], [5]⟩ = .enc 1 := by decide
theorem test_decode_dec : decode ⟨0b010#3, 1, 2, [3], [4], [5]⟩ = .dec 2 := by decide
theorem test_decode_fenc : decode ⟨0b011#3, 1, 2, [3], [4], [5]⟩ = .fenc [3] := by decide
theorem test_decode_fdec : decode ⟨0b100#3, 1, 2, [3], [4], [5]⟩ = .fdec [4] := by decide
theorem test_decode_enq : decode ⟨0b101#3, 1, 2, [3], [4], [5]⟩ = .enq [5] := by decide
theorem test_decode_done : decode ⟨0b110#3, 1, 2, [3], [4], [5]⟩ = .done := by decide
theorem test_decode_clr : decode ⟨0b111#3, 1, 2, [3], [4], [5]⟩ = .clr := by decide

/-! ### The codec (`95_test_vectors.md` 2.1, 2.4; `40_codec.md` R86) -/

/-- Section 2.1: every row of the ENC table. -/
theorem test_enc_vectors : ∀ c ∈ ([(0, 0xFF), (1, 0xFF), (3, 0xFF), (4, 0xFE), (11, 0xFE), (12, 0xFD), (32, 0xFB), (33, 0xFB)] ++
  [(100, 0xF2), (123, 0xF0), (124, 0xEF), (255, 0xE7), (256, 0xE7), (328, 0xE3), (379, 0xE0), (380, 0xDF)] ++
  [(891, 0xD0), (892, 0xCF), (1000, 0xCE), (1915, 0xC0), (1916, 0xBF), (3277, 0xB5), (3963, 0xB0), (3964, 0xAF)] ++
  [(8059, 0xA0), (8060, 0x9F), (8192, 0x9F), (16251, 0x90), (16252, 0x8F), (16383, 0x8F), (16384, 0x8F), (24576, 0x87)] ++
  [(31611, 0x81), (31612, 0x80), (32635, 0x80), (32636, 0x80), (32767, 0x80), (-1, 0x7F), (-3, 0x7F), (-4, 0x7E)] ++
  [(-8, 0x7E), (-100, 0x72), (-123, 0x70), (-124, 0x6F), (-256, 0x67), (-1000, 0x4E), (-16384, 0x0F), (-32635, 0x00)] ++
  [(-32767, 0x00), (-32768, 0x00)] : List (Int × Nat)), (encf c.1).toNat = c.2 := by decide

/-- R84, U17: the operand word 0x8000 does not wrap, and ENC changes nothing but the output list. -/
theorem test_enc_most_negative_word :
    exec (.enc 0x8000#16) State.reset = .next { State.reset with outputs := [.ulaw 0x00#8] } := rfl

/-- Section 2.4 (not this hardware's behaviour): the literal reading of encode step 6. -/
theorem test_literal_reading : ∀ c ∈ ([(0, 0xF7), (12, 0xF6), (32, 0xF5), (115, 0xF0), (116, 0xF0),
    (124, 0xEF), (-1, 0x77), (-100, 0x71)] : List (Int × Nat)), (encfAt 4 c.1).toNat = c.2 := by decide

/-- R86: the decoder's table, bytes 0x00 to 0x7F. -/
theorem test_dec_table_negative : (List.range 128).map (fun n => decf (BitVec.ofNat 8 n)) =
  [-32124, -31100, -30076, -29052, -28028, -27004, -25980, -24956, -23932, -22908, -21884, -20860, -19836, -18812, -17788, -16764] ++
  [-15996, -15484, -14972, -14460, -13948, -13436, -12924, -12412, -11900, -11388, -10876, -10364, -9852, -9340, -8828, -8316] ++
  [-7932, -7676, -7420, -7164, -6908, -6652, -6396, -6140, -5884, -5628, -5372, -5116, -4860, -4604, -4348, -4092] ++
  [-3900, -3772, -3644, -3516, -3388, -3260, -3132, -3004, -2876, -2748, -2620, -2492, -2364, -2236, -2108, -1980] ++
  [-1884, -1820, -1756, -1692, -1628, -1564, -1500, -1436, -1372, -1308, -1244, -1180, -1116, -1052, -988, -924] ++
  [-876, -844, -812, -780, -748, -716, -684, -652, -620, -588, -556, -524, -492, -460, -428, -396] ++
  [-372, -356, -340, -324, -308, -292, -276, -260, -244, -228, -212, -196, -180, -164, -148, -132] ++
  [-120, -112, -104, -96, -88, -80, -72, -64, -56, -48, -40, -32, -24, -16, -8, 0] := by decide

/-- R86: the decoder's table, bytes 0x80 to 0xFF. -/
theorem test_dec_table_positive : (List.range 128).map (fun n => decf (BitVec.ofNat 8 (n + 128))) =
  [32124, 31100, 30076, 29052, 28028, 27004, 25980, 24956, 23932, 22908, 21884, 20860, 19836, 18812, 17788, 16764] ++
  [15996, 15484, 14972, 14460, 13948, 13436, 12924, 12412, 11900, 11388, 10876, 10364, 9852, 9340, 8828, 8316] ++
  [7932, 7676, 7420, 7164, 6908, 6652, 6396, 6140, 5884, 5628, 5372, 5116, 4860, 4604, 4348, 4092] ++
  [3900, 3772, 3644, 3516, 3388, 3260, 3132, 3004, 2876, 2748, 2620, 2492, 2364, 2236, 2108, 1980] ++
  [1884, 1820, 1756, 1692, 1628, 1564, 1500, 1436, 1372, 1308, 1244, 1180, 1116, 1052, 988, 924] ++
  [876, 844, 812, 780, 748, 716, 684, 652, 620, 588, 556, 524, 492, 460, 428, 396] ++
  [372, 356, 340, 324, 308, 292, 276, 260, 244, 228, 212, 196, 180, 164, 148, 132] ++
  [120, 112, 104, 96, 88, 80, 72, 64, 56, 48, 40, 32, 24, 16, 8, 0] := by decide

/-! ### The frame operations (`95_test_vectors.md` 2.5) -/

/-- Section 2.5: the ramp, which a reversed or byte-swapped encoder fails. -/
theorem test_fenc_ramp : encodeFrame [0, 8, 16, 32, 64, 128, 256, 512, 1024, 2048, 4096, 8192, 16384,
      32767, BitVec.ofInt 16 (-32767), BitVec.ofInt 16 (-1)] =
    [0xFF, 0xFE, 0xFD, 0xFB, 0xF7, 0xEF, 0xE7, 0xDB, 0xCD, 0xBE, 0xAF, 0x9F, 0x8F, 0x80, 0x00, 0x7F] := by
  decide

/-- Section 2.5: the empty block gives the empty frame, and nothing else changes. -/
theorem test_fenc_empty :
    exec (.fenc []) State.reset = .next { State.reset with outputs := [.frame []] } := rfl

/-- Section 2.5: FDEC of the ramp's frame. -/
theorem test_fdec_ramp : (decodeFrame [0xFF, 0xFE, 0xFD, 0xFB, 0xF7, 0xEF, 0xE7, 0xDB, 0xCD, 0xBE, 0xAF,
      0x9F, 0x8F, 0x80, 0x00, 0x7F]).map toInt16 =
    [0, 8, 16, 32, 64, 132, 260, 524, 1052, 2108, 4092, 8316, 16764, 32124, -32124, 0] := by decide

/-- R102: FDEC does not enqueue. -/
theorem test_fdec_does_not_enqueue :
    exec (.fdec [0x7F#8]) State.reset = .next { State.reset with outputs := [.block [0]] } := rfl

/-- R101: FSKIP emits no frame. -/
theorem test_fskip : exec .fskip State.reset = .next State.reset := rfl

/-! ### The scheduler (`95_test_vectors.md` 2.6) -/

/-- A scheduler playing [0, 988]. -/
def playing (q : List Block) : State := ⟨.playing, some [0, 988], q, [], []⟩

/-- Section 2.6, row 1: ENQ from Idle starts the block. -/
theorem test_enq_idle : exec (.enq [0, 988]) State.reset =
    .next ⟨.playing, some [0, 988], [], [.start [0, 988]], []⟩ := rfl

/-- Section 2.6, row 7: the same content again is a second entry, at the tail. -/
theorem test_enq_playing : exec (.enq [8]) (playing [[8]]) = .next (playing [[8], [8]]) := rfl

/-- Section 2.6, row 9: DONE starts the block enqueued earliest. -/
theorem test_done_starts_next : exec .done (playing [[1], [2]]) =
    .next ⟨.playing, some [1], [[2]], [.start [1]], []⟩ := rfl

/-- Section 2.6, rows 3 and 8: DONE with nothing waiting ends Idle, and in Idle changes nothing. -/
theorem test_done_ends_idle : exec .done (playing []) = .next State.reset ∧
    exec .done State.reset = .next State.reset := ⟨rfl, rfl⟩

/-- Section 2.6, row 11: CLR drops the current block and the waiting ones, and emits nothing. -/
theorem test_clr : exec .clr (playing [[1], [2]]) = .next State.reset := rfl

/-- R128: `qlen` does not count the current block. -/
theorem test_status_outputs : (playing [[1], [2]]).qlen = 2 ∧ (playing []).playing = 1#1 ∧
    (playing []).qlen = 0 ∧ State.reset.playing = 0#1 := by decide

/-! ### Steps -/

/-- R6: with no event presented a step holds the state. -/
theorem test_step_without_event : step (playing [[1]]) = .next (playing [[1]]) := rfl

/-- R70: a table word presented after reset is the next operation handled; here ENQ of an empty
block. -/
theorem test_step_of_table_word : step (State.reset.withFetchWord 8 5) =
    .next ⟨.playing, some [], [], [.start []], []⟩ := rfl

/-! ### The written form and the host's pseudo-operations (R76, R77, R69) -/

/-- R76: `FENC [0, 1000, -1000]` and `DEC 0xCE` as written there. -/
theorem test_event_text :
    eventText (.fenc [0, 1000, BitVec.ofInt 16 (-1000)]) =
      ['F', 'E', 'N', 'C', ' ', '[', '0', ',', ' ', '1', '0', '0', '0', ',', ' ', '-', '1', '0', '0',
        '0', ']'] ∧
    eventText (.dec 0xCE) = ['D', 'E', 'C', ' ', '0', 'x', 'C', 'E'] := by decide

/-- R76: the output `-> ulaw(0xCE)` as written there. -/
theorem test_output_text : outputText (.ulaw 0xCE) =
    ['-', '>', ' ', 'u', 'l', 'a', 'w', '(', '0', 'x', 'C', 'E', ')'] := by decide

/-- R76: `FDEC [0xFF, 0xCE]` reads as the event it is written for. -/
theorem test_read_line : readLine ['F', 'D', 'E', 'C', ' ', '[', '0', 'x', 'F', 'F', ',', ' ', '0', 'x',
    'C', 'E', ']'] = some [.fdec [0xFF, 0xCE]] := by decide

/-- R76, R77: a program of two lines, the first a pseudo-operation. -/
theorem test_read_program : readProgram ['C', 'A', 'P', 'T', ' ', 'n', 'o', 'n', 'e', '\n', 'E', 'N',
    'C', ' ', '1', '0', '0', '0'] = some [.fskip, .enc 1000] := by decide

/-- `95_test_vectors.md` L1.7: a message that is not "media", or has no payload, presents nothing. -/
theorem test_ignored_message : inboundEvents ⟨"ping", some [0xFF]⟩ = [] ∧
    inboundEvents ⟨"media", none⟩ = [] ∧
    inboundEvents ⟨"media", some [0xFF, 0xCE]⟩ = [.fdec [0xFF, 0xCE], .enq [0, 988]] := by decide

/-- R151: at its boundary an error class presents at most one CLR. -/
theorem test_error_events :
    errorEvents .transport = [stop] ∧ errorEvents .malformedMessage = [rxign] := by decide

/-! ### Witnesses: for every statement with hypotheses, a state and operands that meet them -/

theorem witness_StepHandlesTheEarliestEvent :
    (State.reset.withFetchWord 8 5).inbox = Event.idle 5#3 :: [] ∧ decode (Event.idle 5#3) = .enq [] ∧
    State.reset.inbox = [] := by decide

theorem witness_ExponentIsTheHighestSetBit : 132 ≤ 132 ∧ 32767 ≤ 32767 ∧ (132 : Nat).testBit 7 = true := by
  decide

theorem witness_EncoderSaturates : (32635 : Int) ≤ 65534 ∧ (-65534 : Int) ≤ -32635 := by decide

theorem witness_EncoderIsSignSymmetric : (1000 : Int) ≠ 0 := by decide

theorem witness_RoundTripIsMonotone : (-4 : Int) ≤ 1000 := by decide

theorem witness_DecoderRangeAndDistinctValues : decf 0xFF#8 = decf 0x7F#8 := by decide

theorem witness_SignConvention : (0x7F#8).toNat ≤ 0x7F ∧ 0x80 ≤ (0x80#8).toNat ∧ (-1 : Int) < 0 := by decide

theorem witness_RoundTripErrorBound : (0 : Int) ≤ 123 ∧ (123 : Int) ≤ 32635 ∧ (-1 : Int) < 0 ∧
    -32635 ≤ (-1 : Int) ∧ |(123 : Int)| ≤ 123 ∧ (32635 : Int) < 32767 ∧ (-32768 : Int) < -32635 ∧
    (0x80#8 : Byte) ≠ 0x7F#8 := by decide

theorem witness_SecondPassChangesNoValue : (0 : Int) ≤ 1000 ∧ (-4 : Int) < -3 := by decide

theorem witness_LiteralReadingOfStepSix : (123 : Int).natAbs ≤ 123 ∧ 116 ≤ (-124 : Int).natAbs := by decide

/-- A quantiser exists: rounding to the nearest integer. -/
theorem witness_FloatExamplesUnderEveryTieRule :
    IsQuantiser (fun s => round (Config.scaleIn * s)) := fun s => by
  rw [abs_sub_comm]; exact abs_sub_round _

/-- And at 0 its value is unclipped. -/
theorem witness_FloatRoundTripBound :
    IsQuantiser (fun s => round (Config.scaleIn * s)) ∧
    |(fun s : ℝ => round (Config.scaleIn * s)) 0| ≤ 32635 :=
  ⟨witness_FloatExamplesUnderEveryTieRule, by simp⟩

theorem witness_FencEncodesEachLane : ([1000] : Capture)[0]? = some 1000 := by decide

theorem witness_FdecDecodesEachLane : ([0xCE] : Frame)[0]? = some 0xCE := by decide

theorem witness_FrameRoundTrip :
    ([1000] : Capture)[0]? = some 1000 ∧ |(1000#16 : LinWord).toInt| ≤ 32635 := by decide

theorem witness_CaptureCycleEmitsOneFrameOrNone :
    captureDelivery Config.hw .fskip = true ∧
    captureDelivery Config.hw (.fenc (List.replicate 128 0)) = true := by
  simp [captureDelivery, Config.hw]

/-- The reset state meets the invariant; so does a playing state with a block waiting. -/
theorem witness_EveryStepKeepsTheInvariant : State.reset.Inv ∧ (playing [[1]]).Inv := by
  simp [State.Inv, State.reset, playing]

theorem witness_TransitionTable : State.reset.st = .idle ∧ State.reset.q = [] ∧
    (playing []).st = .playing ∧ (playing []).q = [] ∧ (playing [[1]]).st = .playing ∧
    (playing [[1]]).q = [1] :: [] ∧ Instr.stateless .fskip = true := by decide

theorem witness_PlayingFlagWrites : Instr.stateless (.dec 0) = true ∧ Instr.stateless .done = false := by
  decide

theorem witness_FifoOrder : (playing [[1]]).Inv ∧ Instr.clr ∉ [Instr.enq [2], .done] :=
  ⟨witness_EveryStepKeepsTheInvariant.2, by decide⟩

/-- The messages of the next witness: one valid, one ignored, one valid. -/
def messagesWitness : List InboundMessage :=
  [⟨"media", some [0xCE]⟩, ⟨"ping", some [0xFF]⟩, ⟨"media", some [0xFF]⟩]

/-- The run of the next witness: the messages' events with completions and a capture cycle between. -/
def interleavedWitness : List Instr :=
  [.fdec [0xCE], .done, .enq [988], .fenc [1], .done, .fdec [0xFF], .enq [0], .done]

theorem witness_ReceivedSamplesPlayInOrder : (playing [[1]]).Inv ∧
    .clr ∉ interleavedWitness ∧
    interleavedWitness.filter (·.source = .transport) = messagesWitness.flatMap inboundEvents :=
  ⟨witness_EveryStepKeepsTheInvariant.2, by decide, by decide⟩

theorem witness_StartsAreSeparatedByDoneOrClr :
    Instr.done ∉ [Instr.enq [2], .enq [3]] ∧ Instr.clr ∉ [Instr.enq [2], .enq [3]] := by decide

/-- A run from reset that leaves a block waiting, and one that leaves none playing. -/
theorem witness_PlaybackIsGapless :
    execAll [.enq [1], .enq [2]] State.reset = .next ⟨.playing, some [1], [[2]], [.start [1]], []⟩ ∧
    execAll [] State.reset = .next State.reset ∧ State.reset.cur = none := ⟨rfl, rfl, rfl⟩

theorem witness_EveryWaitingBlockIsStarted : (playing [[1]]).Inv ∧
    Instr.clr ∉ [Instr.enq [2], .done] ∧ (playing [[1]]).q.length ≤ [Instr.enq [2], .done].count .done :=
  ⟨witness_EveryStepKeepsTheInvariant.2, by decide, by decide⟩

theorem witness_LostCompletionStallsPlayback : (playing [[1]]).st = .playing ∧
    Instr.done ∉ [Instr.enq [2]] ∧ Instr.clr ∉ [Instr.enq [2]] := by decide

theorem witness_EnqAndDoneCommute : (playing []).st = .playing := rfl

/-- An Idle and a Playing state, the second with a block waiting. -/
theorem witness_ClrRaces : State.reset.Inv ∧ State.reset.st = .idle ∧ (playing [[1]]).Inv ∧
    (playing [[1]]).st = .playing :=
  ⟨witness_EveryStepKeepsTheInvariant.1, rfl, witness_EveryStepKeepsTheInvariant.2, rfl⟩

theorem witness_StatelessOperationCommutes : Instr.stateless (.enc 1000) = true := rfl

/-- Two interleavings of one capture operation and two playback operations. -/
theorem witness_CaptureAndPlaybackAreIndependent :
    [Instr.fenc [1], .enq [2], .done].filter (·.isCapture) =
      [Instr.enq [2], .done, .fenc [1]].filter (·.isCapture) ∧
    [Instr.fenc [1], .enq [2], .done].filter (!·.isCapture) =
      [Instr.enq [2], .done, .fenc [1]].filter (!·.isCapture) := by decide

/-- What the sources of the next witness issued: the transport one RX, the output device one DONE. -/
def issuedWitness : Source → List Instr
  | .capture => []
  | .transport => rx [0xCE]
  | .outputDevice => [.done]
  | .session => []
  | .testBench => []

theorem witness_PlayOrderIsArrivalOrderUnderAnyArbitration :
    (playing [[1]]).Inv ∧
    LegalOrder issuedWitness
      [(.transport, .fdec [0xCE]), (.outputDevice, .done), (.transport, .enq [988])] ∧
    (∀ e ∈ ([(.transport, .fdec [0xCE]), (.outputDevice, .done), (.transport, .enq [988])] :
      List (Source × Instr)), e.2.source = e.1) ∧ issuedWitness .session = [] :=
  ⟨witness_EveryStepKeepsTheInvariant.2, fun src => by cases src <;> decide, by decide, rfl⟩

/-- A device that renders the current block as its block 0, and completes it. -/
theorem witness_DutifulDeviceNeverPlaysTwoBlocks : (playing [[1]]).Inv ∧
    DeviceAgrees (playing [[1]]) ⟨1, .rendering 0 [0, 988]⟩ ∧
    dutifulRun [⟨.enq [2], 0⟩, ⟨.done, 0⟩] (playing [[1]]) ⟨1, .rendering 0 [0, 988]⟩ = true :=
  ⟨witness_EveryStepKeepsTheInvariant.2, rfl, by decide⟩

theorem witness_StaleCompletionStartsTwoBlocks : (playing [[1]]).st = .playing ∧
    (playing [[1]]).q = [1] :: [] ∧
    (⟨2, .rendering 1 [0, 988]⟩ : Device).rendering = some (1, [0, 988]) ∧ (0 : Nat) ≠ 1 := by decide

/-- A run from reset whose duties hold: one completion of a rendered block, and one of an abandoned
block that arrives before the next `start`. -/
def dutifulWitness : List EnvEvent :=
  [⟨.enq [1], 0⟩, ⟨.done, 0⟩, ⟨.enq [2], 0⟩, ⟨.clr, 0⟩, ⟨.done, 1⟩, ⟨.enq [3], 0⟩, ⟨.done, 2⟩]

theorem witness_DutifulCompletionsAnswerDistinctStarts :
    dutifulRun dutifulWitness State.reset ⟨0, .free⟩ = true ∧
    completionsIn dutifulWitness = [0, 1, 2] := by decide

/-- Two completions in the middle of that run: of a block being rendered, and of an abandoned one. -/
theorem witness_CompletionsComeAfterTheirStarts :
    dutifulRun ([⟨.enq [1], 0⟩] ++ ⟨.done, 0⟩ :: [⟨.enq [2], 0⟩]) State.reset ⟨0, .free⟩ = true ∧
    dutifulRun ([⟨.enq [1], 0⟩, ⟨.clr, 0⟩] ++ ⟨.done, 0⟩ :: [⟨.enq [2], 0⟩]) State.reset ⟨0, .free⟩ =
      true := by decide

/-- R161(b): a DONE that answers the block it would itself start breaks the duty. -/
theorem test_duty_refuses_completion_of_own_start :
    dutifulRun [⟨.enq [1], 0⟩, ⟨.enq [2], 0⟩, ⟨.done, 1⟩] State.reset ⟨0, .free⟩ = false := by decide

/-- R161(b): a DONE before any `start` and a second DONE for one block break the duty. -/
theorem test_duty_refuses_spurious_completions :
    dutifulRun [⟨.done, 0⟩] State.reset ⟨0, .free⟩ = false ∧
    dutifulRun [⟨.enq [1], 0⟩, ⟨.done, 0⟩, ⟨.done, 0⟩] State.reset ⟨0, .free⟩ = false := by decide

/-- `95_test_vectors.md` program P5: the completion of the abandoned block after a later `start` breaks
the duty (R161(d)), and hands the device a block while it renders another (R173); before that
`start` it is harmless. -/
theorem test_duty_refuses_stale_completion :
    dutifulRun [⟨.enq [1], 0⟩, ⟨.clr, 0⟩, ⟨.enq [2], 0⟩, ⟨.enq [3], 0⟩, ⟨.done, 0⟩] State.reset ⟨0, .free⟩ =
      false ∧
    jointRun [⟨.enq [1], 0⟩, ⟨.clr, 0⟩, ⟨.enq [2], 0⟩, ⟨.enq [3], 0⟩, ⟨.done, 0⟩] State.reset ⟨0, .free⟩ =
      none ∧
    dutifulRun [⟨.enq [1], 0⟩, ⟨.clr, 0⟩, ⟨.done, 0⟩, ⟨.enq [2], 0⟩] State.reset ⟨0, .free⟩ = true := by
  decide

/-- An environment that enqueues two blocks, completes both, and then only skips capture cycles. -/
def envWitness : Nat → EnvEvent
  | 0 => ⟨.enq [1], 0⟩
  | 1 => ⟨.enq [2], 0⟩
  | 2 => ⟨.done, 0⟩
  | 3 => ⟨.done, 1⟩
  | _ + 4 => ⟨.fskip, 0⟩

/-- Where that environment ends: both blocks started and finished. -/
theorem envWitness_runs : ∀ n, jointRun (envPrefix envWitness (n + 4)) State.reset ⟨0, .free⟩ =
      some (⟨.idle, none, [], [.start [1], .start [2]], []⟩, ⟨2, .free⟩) ∧
    dutifulRun (envPrefix envWitness (n + 4)) State.reset ⟨0, .free⟩ = true
  | 0 => by decide
  | n + 1 => by
    obtain ⟨hr, hd⟩ := envWitness_runs n
    rw [show n + 1 + 4 = n + 4 + 1 from rfl, envPrefix_succ, jointRun_append,
      dutifulRun_append _ _ _ _ _ _ hr, hr, hd]
    exact ⟨rfl, rfl⟩

/-- All the duties hold of it, and after its second event a block waits. -/
theorem witness_EveryEnqueuedBlockIsEventuallyPlayed :
    State.reset.Inv ∧ DeviceAgrees State.reset ⟨0, .free⟩ ∧
    dutifulForever envWitness State.reset ⟨0, .free⟩ ∧
    CompletionsAreDelivered envWitness State.reset ⟨0, .free⟩ ∧
    (∀ n, (envWitness n).instr ≠ .clr) ∧
    jointRun (envPrefix envWitness 2) State.reset ⟨0, .free⟩ =
      some (⟨.playing, some [1], [[2]], [.start [1]], []⟩, ⟨1, .rendering 0 [1]⟩) := by
  refine ⟨witness_EveryStepKeepsTheInvariant.1, rfl, ?_, ?_, ?_, by decide⟩
  · intro n
    match n with
    | 0 => decide
    | 1 => decide
    | 2 => decide
    | 3 => decide
    | n + 4 => exact (envWitness_runs n).2
  · intro n t d k b hr hb
    match n with
    | 0 => cases hr; cases hb
    | 1 => cases hr; cases hb; exact ⟨2, by decide, .inl rfl⟩
    | 2 => cases hr; cases hb; exact ⟨2, by decide, .inl rfl⟩
    | 3 => cases hr; cases hb; exact ⟨3, by decide, .inl rfl⟩
    | n + 4 => rw [(envWitness_runs n).1] at hr; cases hr; cases hb
  · intro n
    match n with
    | 0 => decide
    | 1 => decide
    | 2 => decide
    | 3 => decide
    | n + 4 => exact fun h => nomatch h

theorem witness_FiniteQueueCapRefusesWhenFull :
    ({ Config.hw with queueCap := some 1 } : Config.Params).queueCap = some 1 ∧
    Config.hw.maxBlockLen = none ∧ 1 ≤ (playing [[1]]).q.length ∧ (playing []).q.length < 1 := by decide

theorem witness_FiniteLengthBoundRefusesLongerOperands :
    ({ Config.hw with maxBlockLen := some 1 } : Config.Params).maxBlockLen = some 1 ∧
    Config.hw.queueCap = none ∧ Config.hw.e0Shift = 3 := by decide

end Sys2Proof.Tests
end

section
/-! SUPPORT. The fields of a mu-law byte as the digits of its value (R60, R61), and the complement of
R62 in terms of them. -/

namespace Sys2Proof.Machine

theorem signField_eq (b : Byte) : signField b = b.toNat / 128 := by
  have hb : b.toNat < 256 := b.isLt
  show b.toNat / 128 % 2 = b.toNat / 128
  omega

theorem exponentField_eq (b : Byte) : exponentField b = b.toNat / 16 % 8 := rfl

theorem mantissaField_eq (b : Byte) : mantissaField b = b.toNat % 16 := by
  show b.toNat / 1 % 16 = b.toNat % 16
  rw [Nat.div_one]

theorem signField_le (b : Byte) : signField b ≤ 1 := by
  unfold signField bits; omega

/-- The packing formula of R61. -/
theorem toNat_eq_fields (b : Byte) :
    b.toNat = signField b * 128 + exponentField b * 16 + mantissaField b := by
  rw [signField_eq, exponentField_eq, mantissaField_eq]
  omega

/-- Digits within their widths that give a byte's value are its fields. -/
theorem fields_of_toNat_eq {b : Byte} {s e k : Nat} (he : e ≤ 7) (hk : k ≤ 15)
    (h : b.toNat = s * 128 + e * 16 + k) :
    signField b = s ∧ exponentField b = e ∧ mantissaField b = k := by
  rw [signField_eq, exponentField_eq, mantissaField_eq, h]
  omega

@[simp] theorem not8_not8 (b : Byte) : not8 (not8 b) = b := by
  have hb : b.toNat < 256 := b.isLt
  apply BitVec.eq_of_toNat_eq
  rw [not8_toNat, not8_toNat]
  omega

/-- R62: 255 is 1, 7 and 15 packed, so subtracting from it borrows nothing from one field to the next. -/
theorem not8_fields (b : Byte) :
    signField (not8 b) = 1 - signField b ∧ exponentField (not8 b) = 7 - exponentField b ∧
      mantissaField (not8 b) = 15 - mantissaField b := by
  have hs := signField_le b
  have he := exponentField_le b
  have hk := mantissaField_le b
  have hpacked : (not8 b).toNat =
      (1 - signField b) * 128 + (7 - exponentField b) * 16 + (15 - mantissaField b) := by
    rw [not8_toNat, toNat_eq_fields b]
    omega
  exact fields_of_toNat_eq (Nat.sub_le _ _) (Nat.sub_le _ _) hpacked

/-- Settles O16: the complement field by field, from the packing of R61. -/
theorem complementActsOnEachField : Obligations.ComplementActsOnEachField := by
  intro b
  obtain ⟨hsign, hexponent, hmantissa⟩ := not8_fields b
  exact ⟨not8_not8 b, hsign, hexponent, hmantissa, toNat_eq_fields b⟩

end Sys2Proof.Machine
end

section
/-! SUPPORT. The decoder of R85 step by step: the reconstructed magnitude and its range, the sign, and
the output word that holds the sample. -/

namespace Sys2Proof.Machine

/-- Step 3 of R85 with its shifts written as arithmetic. -/
theorem reconstruct_eq_scaled (p : Byte) :
    reconstruct p = (mantissaField p * 8 + 132) * 2 ^ exponentField p := by
  simp only [reconstruct, Nat.shiftLeft_eq, Config.bias]

/-- The ends are those of R85: mantissa and exponent 0, and mantissa 15 with exponent 7. -/
theorem reconstruct_range (p : Byte) : 132 ≤ reconstruct p ∧ reconstruct p ≤ 32256 := by
  have hk := mantissaField_le p
  have hlo : 1 ≤ 2 ^ exponentField p := Nat.one_le_two_pow
  have hhi : 2 ^ exponentField p ≤ 2 ^ 7 := Nat.pow_le_pow_right (by omega) (exponentField_le p)
  rw [reconstruct_eq_scaled]
  constructor
  · calc 132 = 132 * 1 := rfl
      _ ≤ (mantissaField p * 8 + 132) * 2 ^ exponentField p := Nat.mul_le_mul (by omega) hlo
  · calc (mantissaField p * 8 + 132) * 2 ^ exponentField p
        ≤ 252 * 2 ^ 7 := Nat.mul_le_mul (by omega) hhi
      _ = 32256 := rfl

/-- Step 4 of R85, on the complemented byte. -/
theorem decf_eq (b : Byte) :
    decf b = if signField (not8 b) = 1 then 132 - (reconstruct (not8 b) : Int)
      else (reconstruct (not8 b) : Int) - 132 := by
  have hs := signField_le (not8 b)
  have hset : signField (not8 b) ≠ 0 ↔ signField (not8 b) = 1 := by omega
  simp only [decf, hset]
  rfl

theorem decf_range (b : Byte) : -32124 ≤ decf b ∧ decf b ≤ 32124 := by
  have ht := reconstruct_range (not8 b)
  rw [decf_eq]
  split <;> omega

/-- `toBits_16` loses nothing on the integers a 16-bit word can hold. -/
theorem toBits16_toInt {v : Int} (lo : -32768 ≤ v) (hi : v ≤ 32767) : (toBits16 v).toInt = v :=
  BitVec.toInt_ofInt_eq_self (by omega) lo (Int.lt_add_one_of_le hi)

theorem toBits16_decf_toInt (b : Byte) : (toBits16 (decf b)).toInt = decf b := by
  obtain ⟨lo, hi⟩ := decf_range b
  exact toBits16_toInt (by omega) (by omega)

/-- Settles O14: the output word holds `decf b`, whose fields are the digits of the complement. -/
theorem decEmitsTheReconstructedSample : Obligations.DecEmitsTheReconstructedSample := by
  intro b s
  obtain ⟨lo, hi⟩ := reconstruct_range (not8 b)
  have hv := (toBits16_decf_toInt b).trans (decf_eq b)
  rw [signField_eq] at hv
  exact ⟨(not8 b).toNat, exponentField (not8 b), mantissaField (not8 b), reconstruct (not8 b),
    toBits16 (decf b), not8_toNat b, exponentField_eq _, mantissaField_eq _,
    reconstruct_eq_scaled _, lo, hi, hv, exec_dec_eq s b⟩

end Sys2Proof.Machine
end

section
/-! SUPPORT. The frame operations lane by lane (R100, R102), and FSKIP inside a run (R101). -/

namespace Sys2Proof.Machine

@[simp] theorem encodeFrame_length (blk : Capture) : (encodeFrame blk).length = blk.length :=
  List.length_map _

/-- Lane `n` of FENC's frame is the encoder's byte for sample `n`, and there is no further lane. -/
@[simp] theorem encodeFrame_getElem? (blk : Capture) (n : Nat) :
    (encodeFrame blk)[n]? = blk[n]?.map fun w => encf w.toInt :=
  List.getElem?_map

@[simp] theorem decodeFrame_length (f : Frame) : (decodeFrame f).length = f.length :=
  List.length_map _

/-- Lane `n` of FDEC's block is the decoder's sample for byte `n`, and there is no further lane. -/
@[simp] theorem decodeFrame_getElem? (f : Frame) (n : Nat) :
    (decodeFrame f)[n]? = f[n]?.map fun b => toBits16 (decf b) :=
  List.getElem?_map

/-- Settles O24: lane `n` of the frame is the byte that `exec_enc_eq` says ENC emits. -/
theorem fencEncodesEachLane : Obligations.FencEncodesEachLane := by
  intro blk s
  refine ⟨encodeFrame blk, exec_fenc_eq s blk, encodeFrame_length blk, fun n w hw => ?_⟩
  have hlane : (encodeFrame blk)[n]? = some (encf w.toInt) := by
    rw [encodeFrame_getElem?, hw, Option.map_some]
  exact ⟨encf w.toInt, hlane, exec_enc_eq s w⟩

/-- Settles O25: lane `n` of the block is the sample that `exec_dec_eq` says DEC emits. -/
theorem fdecDecodesEachLane : Obligations.FdecDecodesEachLane := by
  intro f s
  refine ⟨decodeFrame f, exec_fdec_eq s f, decodeFrame_length f, fun n b hb => ?_⟩
  have hlane : (decodeFrame f)[n]? = some (toBits16 (decf b)) := by
    rw [decodeFrame_getElem?, hb, Option.map_some]
  exact ⟨toBits16 (decf b), hlane, exec_dec_eq s b⟩

theorem execAll_fskip_cons (is : List Instr) (s : State) :
    execAll (.fskip :: is) s = execAll is s :=
  execAll_cons s s is (exec_fskip_eq s)

/-- Two runs that begin with one operation are equal if what follows is equal from every state. -/
theorem execAll_cons_congr (i : Instr) {is js : List Instr}
    (h : ∀ t, execAll is t = execAll js t) (s : State) :
    execAll (i :: is) s = execAll (i :: js) s := by
  simp only [execAll, h]

/-- R101: an FSKIP hands its own state on, so dropping every FSKIP changes no run. -/
theorem execAll_filter_fskip (is : List Instr) (s : State) :
    execAll (is.filter (· ≠ .fskip)) s = execAll is s := by
  induction is generalizing s with
  | nil => rfl
  | cons i is ih =>
    by_cases hi : i = .fskip
    · subst hi
      rw [List.filter_cons_of_neg (by decide), execAll_fskip_cons]
      exact ih s
    · rw [List.filter_cons_of_pos (by simpa using hi)]
      exact execAll_cons_congr i ih s

/-- Settles O29: the run is compared with its FSKIP-free part by induction on its events. -/
theorem fskipIsTheAbsenceOfAnEvent : Obligations.FskipIsTheAbsenceOfAnEvent :=
  ⟨exec_fskip_eq, fun is s => (execAll_filter_fskip is s).symm⟩

end Sys2Proof.Machine
end

section
/-! SUPPORT. Every operation answers a next state (R150), and with it every step. -/

namespace Sys2Proof.Machine

/-- R150. Only FENC, FDEC and ENQ have a check that could refuse; their equations say that under this
hardware's parameters, without a length bound or a capacity, it lets every operand through. -/
theorem exec_exists_next (i : Instr) (s : State) : ∃ t, exec i s = .next t := by
  cases i with
  | fskip => exact ⟨s, exec_fskip_eq s⟩
  | enc w => exact ⟨_, exec_enc_eq s w⟩
  | dec b => exact ⟨_, exec_dec_eq s b⟩
  | fenc blk => exact ⟨_, exec_fenc_eq s blk⟩
  | fdec f => exact ⟨_, exec_fdec_eq s f⟩
  | enq b => exact ⟨_, exec_enq_eq s b⟩
  | done => exact ⟨_, exec_done_eq s⟩
  | clr => exact ⟨_, exec_clr_eq s⟩

theorem step_of_inbox_nil {s : State} (h : s.inbox = []) : step s = .next s := by
  simp only [step, h]

theorem step_of_inbox_cons {s : State} {e : Event} {rest : List Event} (h : s.inbox = e :: rest) :
    step s = exec (decode e) (s.withInbox rest) := by
  simp only [step, h]

/-- A step holds the state or is one operation's meaning, so it stops no more than an operation does. -/
theorem step_exists_next (s : State) : ∃ t, step s = .next t := by
  cases h : s.inbox with
  | nil => exact ⟨s, step_of_inbox_nil h⟩
  | cons e rest =>
    rw [step_of_inbox_cons h]
    exact exec_exists_next (decode e) (s.withInbox rest)

/-- Settles O5: R150 operation by operation, and then for the operation a step runs. -/
theorem noOperationFaultsOrRefuses : Obligations.NoOperationFaultsOrRefuses :=
  ⟨exec_exists_next, step_exists_next⟩

end Sys2Proof.Machine
end

section
/-! SUPPORT. Playing without a completion and without CLR (R175). -/

namespace Sys2Proof.Machine

/-- From Playing at `s` to Playing at `t`: the block in `cur` is the same, the queue has grown by `bs`
at its tail, and no output since is a `start`. -/
structure Stalls (s t : State) (bs : List Block) : Prop where
  playing : t.st = .playing
  cur_eq : t.cur = s.cur
  q_eq : t.q = s.q ++ bs
  outputs_eq : ∃ new, t.outputs = s.outputs ++ new ∧ startsOf new = []

theorem Stalls.refl {s : State} (h : s.st = .playing) : Stalls s s [] :=
  ⟨h, rfl, (List.append_nil _).symm, [], (List.append_nil _).symm, rfl⟩

theorem Stalls.trans {s r t : State} {bs cs : List Block} (h : Stalls s r bs) (k : Stalls r t cs) :
    Stalls s t (bs ++ cs) := by
  obtain ⟨new, hout, hnew⟩ := h.outputs_eq
  obtain ⟨new', hout', hnew'⟩ := k.outputs_eq
  exact ⟨k.playing, k.cur_eq.trans h.cur_eq, by rw [k.q_eq, h.q_eq, List.append_assoc],
    new ++ new', by rw [hout', hout, List.append_assoc],
    by rw [startsOf_append, hnew, hnew', List.append_nil]⟩

theorem Stalls.emit {s : State} (h : s.st = .playing) {o : Output} (ho : startsOf [o] = []) :
    Stalls s (s.emit o) [] :=
  ⟨h, rfl, (List.append_nil _).symm, [o], rfl, ho⟩

theorem Stalls.enqueue {s : State} (h : s.st = .playing) (b : Block) :
    Stalls s (s.enqueue b) [b] :=
  ⟨h, rfl, rfl, [], (List.append_nil _).symm, rfl⟩

theorem enqEffect_of_playing (b : Block) {s : State} (h : s.st = .playing) :
    enqEffect b s = s.enqueue b := by
  rcases enqEffect_cases b s with ⟨-, he⟩ | ⟨hidle, -⟩
  · exact he
  · simp [h] at hidle

/-- Only DONE and CLR end the playing of a block: every other operation leaves it in `cur`. -/
theorem exec_stalls (i : Instr) {s : State} (h : s.st = .playing) (hd : i ≠ .done)
    (hc : i ≠ .clr) : ∃ t, exec i s = .next t ∧ Stalls s t (enqueuedBy [i]) := by
  cases i with
  | fskip => exact ⟨s, exec_fskip_eq s, .refl h⟩
  | enc w => exact ⟨_, exec_enc_eq s w, .emit h (startsOf_ulaw _)⟩
  | dec b => exact ⟨_, exec_dec_eq s b, .emit h (startsOf_lin _)⟩
  | fenc blk => exact ⟨_, exec_fenc_eq s blk, .emit h (startsOf_frame _)⟩
  | fdec f => exact ⟨_, exec_fdec_eq s f, .emit h (startsOf_block _)⟩
  | enq b =>
    refine ⟨s.enqueue b, ?_, .enqueue h b⟩
    rw [exec_enq_eq, enqEffect_of_playing b h]
  | done => exact absurd rfl hd
  | clr => exact absurd rfl hc

theorem execAll_stalls (is : List Instr) {s : State} (h : s.st = .playing) (hd : .done ∉ is)
    (hc : .clr ∉ is) : ∃ t, execAll is s = .next t ∧ Stalls s t (enqueuedBy is) := by
  induction is generalizing s with
  | nil => exact ⟨s, execAll_nil s, .refl h⟩
  | cons i is ih =>
    obtain ⟨hdi, hdis⟩ := not_or.mp (mt List.mem_cons.mpr hd)
    obtain ⟨hci, hcis⟩ := not_or.mp (mt List.mem_cons.mpr hc)
    obtain ⟨r, hr, hsr⟩ := exec_stalls i h (Ne.symm hdi) (Ne.symm hci)
    obtain ⟨t, ht, hrt⟩ := ih hsr.playing hdis hcis
    refine ⟨t, (execAll_cons s r is hr).trans ht, ?_⟩
    have hsplit : enqueuedBy (i :: is) = enqueuedBy [i] ++ enqueuedBy is := enqueuedBy_append [i] is
    rw [hsplit]
    exact hsr.trans hrt

/-- Settles O43: each operation but DONE and CLR keeps the block playing (`exec_stalls`), and stalls
compose along the run. -/
theorem lostCompletionStallsPlayback : Obligations.LostCompletionStallsPlayback := by
  intro is s h hd hc
  obtain ⟨t, ht, hst⟩ := execAll_stalls is h hd hc
  obtain ⟨new, hout, hnew⟩ := hst.outputs_eq
  exact ⟨t, new, ht, hout, hst.playing, hst.cur_eq, hst.q_eq, hnew⟩

end Sys2Proof.Machine
end

section
/-! SUPPORT. The machine as a labelled transition system: what one operation does to a state and what it
emits, one rule for each row of R120 and one for the stateless operations, and runs as sequences of such
transitions. A claim about all runs is an induction over `Trace` with the rules of `Transition` as cases. -/

namespace Sys2Proof.Machine

/-- What a stateless operation emits, whatever the state (R52). -/
def ownOutputs : Instr → List Output
  | .fskip => []
  | .enc w => [.ulaw (encf w.toInt)]
  | .dec b => [.lin (toBits16 (decf b))]
  | .fenc blk => [.frame (encodeFrame blk)]
  | .fdec f => [.block (decodeFrame f)]
  | .enq _ => []
  | .done => []
  | .clr => []

theorem exec_of_stateless {i : Instr} (h : i.stateless) (s : State) :
    exec i s = .next { s with outputs := s.outputs ++ ownOutputs i } := by
  cases i with
  | fskip => rw [exec_fskip_eq, ownOutputs, List.append_nil]
  | enc w => rfl
  | dec b => rfl
  | fenc blk => rfl
  | fdec f => rfl
  | enq b => cases h
  | done => cases h
  | clr => cases h

/-- `Transition i s new t`: handling `i` in `s` emits `new` and ends in `t`. -/
inductive Transition : Instr → State → List Output → State → Prop
  /-- A stateless operation emits its own output (R52). -/
  | stateless {i : Instr} (h : i.stateless) (s : State) :
    Transition i s (ownOutputs i) { s with outputs := s.outputs ++ ownOutputs i }
  /-- ENQ while Playing: the block waits (R121). -/
  | enqWaits (b : Block) {s : State} (hst : s.st = .playing) :
    Transition (.enq b) s [] { s with q := s.q ++ [b] }
  /-- ENQ while Idle: the block then at the head starts (R121). -/
  | enqStarts (b : Block) {s : State} {h : Block} {r : List Block} (hst : s.st = .idle)
    (hq : s.q ++ [b] = h :: r) : Transition (.enq b) s [.start h]
      { s with st := .playing, cur := some h, q := r, outputs := s.outputs ++ [.start h] }
  /-- DONE with a block waiting: it starts (R122). -/
  | doneStarts {s : State} {h : Block} {r : List Block} (hst : s.st = .playing)
    (hq : s.q = h :: r) : Transition .done s [.start h]
      { s with cur := some h, q := r, outputs := s.outputs ++ [.start h] }
  /-- DONE with nothing waiting: Idle (R122). -/
  | doneEnds {s : State} (hst : s.st = .playing) (hq : s.q = []) :
    Transition .done s [] { s with st := .idle, cur := none }
  /-- DONE while Idle: nothing (R122, D13). -/
  | doneHolds {s : State} (hst : s.st = .idle) : Transition .done s [] s
  /-- CLR (R123). -/
  | clr (s : State) : Transition .clr s [] { s with st := .idle, cur := none, q := [] }

/-- The transitions are the operations' meanings. -/
theorem Transition.exec_eq {i : Instr} {s t : State} {new : List Output}
    (h : Transition i s new t) : exec i s = .next t := by
  cases h with
  | stateless h => exact exec_of_stateless h s
  | enqWaits b hst => rw [exec_enq_eq, enqEffect_of_playing b hst]; rfl
  | enqStarts b hst hq =>
    have hs : (s.enqueue b).q = _ :: _ := hq
    rw [exec_enq_eq, enqEffect, hst]
    exact congrArg _ (startHead_of_cons hs)
  | doneStarts hst hq =>
    simp only [exec_done_eq, doneEffect, hst, startHead_of_cons hq]
  | doneEnds hst hq =>
    rw [exec_done_eq, doneEffect, hst]
    exact congrArg _ (startHead_of_nil hq)
  | doneHolds hst => rw [exec_done_eq, doneEffect, hst]
  | clr => rfl

/-- A queue with a block appended has a head. -/
theorem exists_head_of_append (q : List Block) (b : Block) : ∃ h r, q ++ [b] = h :: r :=
  List.exists_cons_of_ne_nil (List.append_ne_nil_of_right_ne_nil q (List.cons_ne_nil b []))

/-- Every operation has a transition in every state. -/
theorem exists_transition (i : Instr) (s : State) : ∃ new t, Transition i s new t := by
  have hstateless (h : i.stateless) : ∃ new t, Transition i s new t := ⟨_, _, .stateless h s⟩
  cases i with
  | enq b =>
    cases hst : s.st with
    | playing => exact ⟨_, _, .enqWaits b hst⟩
    | idle =>
      obtain ⟨h, r, hq⟩ := exists_head_of_append s.q b
      exact ⟨_, _, .enqStarts b hst hq⟩
  | done =>
    cases hst : s.st with
    | idle => exact ⟨_, _, .doneHolds hst⟩
    | playing =>
      cases hq : s.q with
      | nil => exact ⟨_, _, .doneEnds hst hq⟩
      | cons h r => exact ⟨_, _, .doneStarts hst hq⟩
  | clr => exact ⟨_, _, .clr s⟩
  | fskip => exact hstateless rfl
  | enc w => exact hstateless rfl
  | dec b => exact hstateless rfl
  | fenc blk => exact hstateless rfl
  | fdec f => exact hstateless rfl

namespace Transition

variable {i : Instr} {s t : State} {new : List Output}

theorem outputs_eq (h : Transition i s new t) : t.outputs = s.outputs ++ new := by
  cases h with
  | stateless => rfl
  | enqStarts => rfl
  | doneStarts => rfl
  | enqWaits => exact (List.append_nil _).symm
  | doneEnds => exact (List.append_nil _).symm
  | doneHolds => exact (List.append_nil _).symm
  | clr => exact (List.append_nil _).symm

theorem inbox_eq (h : Transition i s new t) : t.inbox = s.inbox := by
  cases h <;> rfl

/-- The output list is written and never read (log entry 4). -/
theorem withOutputs (h : Transition i s new t) (outs : List Output) :
    Transition i { s with outputs := outs } new { t with outputs := outs ++ new } := by
  have hnil : outs = outs ++ [] := (List.append_nil outs).symm
  cases h with
  | stateless h => exact .stateless h _
  | enqStarts b hst hq => exact .enqStarts b (s := { s with outputs := outs }) hst hq
  | doneStarts hst hq => exact .doneStarts (s := { s with outputs := outs }) hst hq
  | enqWaits b hst => rw [← hnil]; exact .enqWaits b (s := { s with outputs := outs }) hst
  | doneEnds hst hq => rw [← hnil]; exact .doneEnds (s := { s with outputs := outs }) hst hq
  | doneHolds hst => rw [← hnil]; exact .doneHolds (s := { s with outputs := outs }) hst
  | clr => rw [← hnil]; exact .clr { s with outputs := outs }

end Transition

/-- `Trace is s new t`: the run of `is` from `s` emits `new` and ends in `t`. -/
inductive Trace : List Instr → State → List Output → State → Prop
  | nil (s : State) : Trace [] s [] s
  | cons {i : Instr} {is : List Instr} {s r t : State} {new new' : List Output}
    (head : Transition i s new r) (tail : Trace is r new' t) : Trace (i :: is) s (new ++ new') t

/-- Every list of operations runs from every state. -/
theorem exists_trace (is : List Instr) (s : State) : ∃ new t, Trace is s new t := by
  induction is generalizing s with
  | nil => exact ⟨[], s, .nil s⟩
  | cons i is ih =>
    obtain ⟨new, r, hr⟩ := exists_transition i s
    obtain ⟨new', t, ht⟩ := ih r
    exact ⟨new ++ new', t, .cons hr ht⟩

namespace Trace

variable {is : List Instr} {s t : State} {new : List Output}

/-- The traces are the runs of R7. -/
theorem execAll_eq (h : Trace is s new t) : execAll is s = .next t := by
  induction h with
  | nil s => exact execAll_nil s
  | cons head _ ih => exact (execAll_cons _ _ _ head.exec_eq).trans ih

theorem outputs_eq (h : Trace is s new t) : t.outputs = s.outputs ++ new := by
  induction h with
  | nil s => exact (List.append_nil _).symm
  | cons head _ ih => rw [ih, head.outputs_eq, List.append_assoc]

theorem withOutputs (h : Trace is s new t) (outs : List Output) :
    Trace is { s with outputs := outs } new { t with outputs := outs ++ new } := by
  induction h generalizing outs with
  | nil s => rw [List.append_nil]; exact .nil _
  | cons head _ ih => rw [← List.append_assoc]; exact .cons (head.withOutputs outs) (ih _)

/-- The operations and the state they start from fix the rest of a trace. -/
theorem unique {t' : State} {new' : List Output} (h : Trace is s new t)
    (h' : Trace is s new' t') : new = new' ∧ t = t' := by
  obtain rfl : t = t' := Host.Outcome.next.inj (h.execAll_eq.symm.trans h'.execAll_eq)
  exact ⟨List.append_cancel_left (h.outputs_eq.symm.trans h'.outputs_eq), rfl⟩

end Trace

theorem trace_of_execAll {is : List Instr} {s t : State} (h : execAll is s = .next t) :
    ∃ new, Trace is s new t := by
  obtain ⟨new, u, hu⟩ := exists_trace is s
  obtain rfl : u = t := Host.Outcome.next.inj (hu.execAll_eq.symm.trans h)
  exact ⟨new, hu⟩

end Sys2Proof.Machine
end

section
/-! SUPPORT. The state invariant of R24 along steps and runs. -/

namespace Sys2Proof.Machine

variable {i : Instr} {is : List Instr} {s t : State} {new : List Output}

theorem State.Inv.cur_of_idle (h : s.Inv) (hst : s.st = .idle) : s.cur = none := h.1.1 hst

theorem State.Inv.q_of_idle (h : s.Inv) (hst : s.st = .idle) : s.q = [] := h.2 hst

theorem State.Inv.idle_of_cur (h : s.Inv) (hcur : s.cur = none) : s.st = .idle := h.1.2 hcur

theorem State.Inv.playing_of_q (h : s.Inv) (hq : s.q ≠ []) : s.st = .playing := by
  cases hst : s.st with
  | playing => rfl
  | idle => exact absurd (h.q_of_idle hst) hq

theorem State.Inv.cur_of_playing (h : s.Inv) (hst : s.st = .playing) : ∃ b, s.cur = some b := by
  cases hcur : s.cur with
  | some b => exact ⟨b, rfl⟩
  | none => simp [h.idle_of_cur hcur] at hst

theorem State.inv_of_playing {b : Block} (hst : s.st = .playing) (hcur : s.cur = some b) :
    s.Inv := by
  simp [State.Inv, hst, hcur]

theorem State.inv_of_idle (hst : s.st = .idle) (hcur : s.cur = none) (hq : s.q = []) : s.Inv :=
  ⟨iff_of_true hst hcur, fun _ => hq⟩

/-- Settles O31: reset is Idle, without a current block, with nothing waiting. -/
theorem invariantHoldsAtReset : Obligations.InvariantHoldsAtReset :=
  State.inv_of_idle rfl rfl rfl

/-- A transition ends Playing a block, or Idle and empty, or leaves the scheduler alone. -/
theorem Transition.inv (h : Transition i s new t) (hs : s.Inv) : t.Inv := by
  cases h with
  | stateless => exact hs
  | enqWaits b hst =>
    obtain ⟨c, hcur⟩ := hs.cur_of_playing hst
    exact State.inv_of_playing hst hcur
  | enqStarts => exact State.inv_of_playing rfl rfl
  | doneStarts hst => exact State.inv_of_playing hst rfl
  | doneEnds hst hq => exact State.inv_of_idle rfl rfl hq
  | doneHolds => exact hs
  | clr => exact State.inv_of_idle rfl rfl rfl

theorem Trace.inv (h : Trace is s new t) (hs : s.Inv) : t.Inv := by
  induction h with
  | nil => exact hs
  | cons head _ ih => exact ih (head.inv hs)

/-- Settles O32: a step holds the state, or is the transition of the operation presented first. -/
theorem everyStepKeepsTheInvariant : Obligations.EveryStepKeepsTheInvariant := by
  intro s hs
  cases hin : s.inbox with
  | nil => exact ⟨s, step_of_inbox_nil hin, hs⟩
  | cons e rest =>
    obtain ⟨new, t, ht⟩ := exists_transition (decode e) (s.withInbox rest)
    exact ⟨t, (step_of_inbox_cons hin).trans ht.exec_eq, ht.inv hs⟩

end Sys2Proof.Machine
end

section
/-! SUPPORT. The order of play over runs (R125, R127, R161(e)). -/

namespace Sys2Proof.Machine

variable {i : Instr} {is : List Instr} {s t : State} {new : List Output}

@[simp] theorem startsOf_ownOutputs (i : Instr) : startsOf (ownOutputs i) = [] := by
  cases i <;> rfl

theorem enqueuedBy_cons (i : Instr) (is : List Instr) :
    enqueuedBy (i :: is) = enqueuedBy [i] ++ enqueuedBy is :=
  enqueuedBy_append [i] is

theorem enqueuedBy_of_stateless (h : i.stateless) : enqueuedBy [i] = [] :=
  enqueuedBy_cons_of_not_enq [] (by rintro b rfl; cases h)

/-- R125(a) for one operation: what it starts comes off the head of the queue, and what it enqueues
goes to its tail. -/
theorem Transition.fifo (h : Transition i s new t) (hc : i ≠ .clr) :
    startsOf new ++ t.q = s.q ++ enqueuedBy [i] := by
  cases h with
  | stateless h =>
    rw [startsOf_ownOutputs, enqueuedBy_of_stateless h, List.append_nil]
    exact List.nil_append _
  | enqWaits => rfl
  | enqStarts b hst hq => exact hq.symm
  | doneStarts hst hq => rw [hq]; exact (List.append_nil _).symm
  | doneEnds => exact (List.append_nil _).symm
  | doneHolds => exact (List.append_nil _).symm
  | clr => exact absurd rfl hc

theorem Trace.fifo (h : Trace is s new t) (hc : .clr ∉ is) :
    startsOf new ++ t.q = s.q ++ enqueuedBy is := by
  induction h with
  | nil s => exact (List.append_nil _).symm
  | @cons i is s r t new new' head tail ih =>
    obtain ⟨hci, hcis⟩ := List.ne_and_not_mem_of_not_mem_cons hc
    calc startsOf (new ++ new') ++ t.q
      _ = startsOf new ++ (startsOf new' ++ t.q) := by rw [startsOf_append, List.append_assoc]
      _ = startsOf new ++ r.q ++ enqueuedBy is := by rw [ih hcis, List.append_assoc]
      _ = s.q ++ enqueuedBy (i :: is) := by
        rw [head.fifo hci.symm, enqueuedBy_cons i is, List.append_assoc]

/-- A current block is the last one started, or the one that was current before (R125(b)). -/
theorem Transition.cur_eq_last (h : Transition i s new t) {c : Block} (hcur : t.cur = some c) :
    (s.cur.toList ++ startsOf new).getLast? = some c := by
  cases h with
  | stateless => rw [startsOf_ownOutputs, hcur]; rfl
  | enqWaits => rw [hcur]; rfl
  | enqStarts => rw [startsOf_start, List.getLast?_concat]; exact hcur
  | doneStarts => rw [startsOf_start, List.getLast?_concat]; exact hcur
  | doneEnds => cases hcur
  | doneHolds => rw [hcur]; rfl
  | clr => cases hcur

theorem Trace.cur_eq_last (h : Trace is s new t) {c : Block} (hcur : t.cur = some c) :
    (s.cur.toList ++ startsOf new).getLast? = some c := by
  induction h with
  | nil s => rw [hcur]; rfl
  | @cons i is s r t new new' head tail ih =>
    have hlast := ih hcur
    rw [startsOf_append, ← List.append_assoc, List.getLast?_append]
    rw [List.getLast?_append] at hlast
    cases hstart : (startsOf new').getLast? with
    | some d => rwa [hstart] at hlast
    | none =>
      rw [hstart, Option.none_or] at hlast
      rw [Option.none_or]
      refine head.cur_eq_last ?_
      cases hr : r.cur with
      | none => rw [hr] at hlast; cases hlast
      | some d => rw [hr] at hlast; exact hlast

/-- Settles O38: each transition keeps the order (`Transition.fifo`) and the last start current
(`Transition.cur_eq_last`), and the invariant of R24 gives the end state's shape. -/
theorem fifoOrder : Obligations.FifoOrder := by
  intro is s hs hc
  obtain ⟨new, t, ht⟩ := exists_trace is s
  have hinv := ht.inv hs
  refine ⟨t, new, ht.execAll_eq, ht.outputs_eq, ht.fifo hc, fun hst => ?_, fun hst =>
    ⟨hinv.cur_of_idle hst, hinv.q_of_idle hst⟩⟩
  obtain ⟨c, hcur⟩ := hinv.cur_of_playing hst
  rw [hcur, ht.cur_eq_last hcur]

/-- Only a transport's operation enqueues (R152). -/
theorem enqueuedBy_filter_transport (is : List Instr) :
    enqueuedBy (is.filter (·.source = .transport)) = enqueuedBy is := by
  induction is with
  | nil => rfl
  | cons i is ih =>
    rw [enqueuedBy_cons i is, ← ih]
    cases i <;> rfl

/-- R77: a valid media message enqueues the block of its payload, and any other nothing. -/
theorem enqueuedBy_inboundEvents (m : InboundMessage) : enqueuedBy (inboundEvents m) =
    ((if m.event = "media" then m.payload else none).map decodeFrame).toList := by
  unfold inboundEvents
  split
  · cases m.payload <;> rfl
  · rfl

theorem enqueuedBy_flatMap_inboundEvents (msgs : List InboundMessage) :
    enqueuedBy (msgs.flatMap inboundEvents) =
      (msgs.filterMap fun m => if m.event = "media" then m.payload else none).map decodeFrame := by
  induction msgs with
  | nil => rfl
  | cons m msgs ih =>
    rw [List.flatMap_cons, enqueuedBy_append, enqueuedBy_inboundEvents, ih, List.filterMap_cons]
    cases (if m.event = "media" then m.payload else none) <;> rfl

theorem flatten_map_decodeFrame (fs : List Frame) :
    (fs.map decodeFrame).flatten = fs.flatten.map fun b => toBits16 (decf b) :=
  List.map_flatten.symm

/-- Settles O39: the order of blocks of R125, with the blocks that the messages enqueue, flattened to
samples. -/
theorem receivedSamplesPlayInOrder : Obligations.ReceivedSamplesPlayInOrder := by
  intro msgs is s hs hc hmsgs
  obtain ⟨new, t, ht⟩ := exists_trace is s
  refine ⟨t, new, ht.execAll_eq, ht.outputs_eq, ?_⟩
  rw [← List.flatten_append, ht.fifo hc, ← enqueuedBy_filter_transport, hmsgs,
    enqueuedBy_flatMap_inboundEvents, List.flatten_append, flatten_map_decodeFrame]

/-- A completion starts a block unless none waits. -/
theorem Transition.done_starts (h : Transition .done s new t) (hs : s.Inv) :
    s.q = [] ∨ (startsOf new).length = 1 := by
  cases h with
  | stateless h => cases h
  | doneStarts => exact .inr rfl
  | doneEnds hst hq => exact .inl hq
  | doneHolds hst => exact .inl (hs.q_of_idle hst)

/-- Over a run, either every block that waited is started or every completion has started one. -/
theorem Trace.completions_start (h : Trace is s new t) (hs : s.Inv) (hc : .clr ∉ is) :
    s.q.length ≤ (startsOf new).length ∨ is.count .done ≤ (startsOf new).length := by
  induction h with
  | nil s => exact .inr (Nat.zero_le _)
  | @cons i is s r t new new' head tail ih =>
    obtain ⟨hci, hcis⟩ := List.ne_and_not_mem_of_not_mem_cons hc
    have hfifo := congrArg List.length (head.fifo hci.symm)
    simp only [List.length_append] at hfifo
    have hrest := ih (head.inv hs) hcis
    simp only [startsOf_append, List.length_append]
    by_cases hi : i = .done
    · subst hi
      rw [List.count_cons_self]
      rcases head.done_starts hs with hq | hone
      · exact .inl (by simp [hq])
      · omega
    · rw [List.count_cons_of_ne hi]
      omega

/-- What is started is at the head of what waited, as soon as as much has been started. -/
theorem Trace.queue_started (h : Trace is s new t) (hc : .clr ∉ is)
    (hlen : s.q.length ≤ (startsOf new).length) : s.q <+: startsOf new :=
  List.prefix_of_prefix_length_le (l₃ := s.q ++ enqueuedBy is) (List.prefix_append _ _)
    (h.fifo hc ▸ List.prefix_append _ _) hlen

/-- Settles O42: with as many completions as blocks wait, both cases of `Trace.completions_start` give
as many starts, and R125 their order. -/
theorem everyWaitingBlockIsStarted : Obligations.EveryWaitingBlockIsStarted := by
  intro is s hs hc hdone
  obtain ⟨new, t, ht⟩ := exists_trace is s
  exact ⟨t, new, ht.execAll_eq, ht.outputs_eq,
    ht.queue_started hc ((ht.completions_start hs hc).elim id hdone.trans)⟩

end Sys2Proof.Machine
end

section
/-! SUPPORT. Independence: a stateless operation anywhere in a run (R52), the two halves of the block
(R2, R51), and the sources of events (R153). -/

namespace Sys2Proof.Machine

variable {i : Instr} {is : List Instr} {s t : State} {new : List Output}

/-- Settles O46: the operation only lengthens the output list, which what follows it does not read
(`Trace.withOutputs`). -/
theorem statelessOperationCommutes : Obligations.StatelessOperationCommutes := by
  intro i hi
  refine ⟨ownOutputs i, fun pre post s => ?_⟩
  obtain ⟨before, r, hpre⟩ := exists_trace pre s
  obtain ⟨after, t, hpost⟩ := exists_trace post r
  have hout := hpre.outputs_eq
  refine ⟨r, t, before, after, hpre.execAll_eq, hout, ?_, ?_⟩
  · rw [execAll_append _ _ _ hpre.execAll_eq, hpost.execAll_eq, ← hout, ← hpost.outputs_eq]
  · rw [execAll_append _ _ _ hpre.execAll_eq, execAll_cons _ _ _ (exec_of_stateless hi r),
      (hpost.withOutputs _).execAll_eq, hout]

/-- The capture half's operations emit on its ports, and the playback half's on the others. -/
theorem isCapture_of_mem_ownOutputs (i : Instr) : ∀ o ∈ ownOutputs i, o.isCapture = i.isCapture := by
  cases i <;> simp [ownOutputs, Output.isCapture, Instr.isCapture]

theorem Transition.isCapture_of_mem (h : Transition i s new t) :
    ∀ o ∈ new, o.isCapture = i.isCapture := by
  cases h with
  | stateless => exact isCapture_of_mem_ownOutputs i
  | enqStarts => exact List.forall_mem_singleton.2 rfl
  | doneStarts => exact List.forall_mem_singleton.2 rfl
  | enqWaits => exact List.forall_mem_nil _
  | doneEnds => exact List.forall_mem_nil _
  | doneHolds => exact List.forall_mem_nil _
  | clr => exact List.forall_mem_nil _

/-- A capture operation emits its own output and touches nothing else. -/
theorem Transition.of_isCapture (h : Transition i s new t) (hi : i.isCapture) :
    new = ownOutputs i ∧ t = { s with outputs := s.outputs ++ ownOutputs i } := by
  cases h with
  | stateless => exact ⟨rfl, rfl⟩
  | enqWaits => cases hi
  | enqStarts => cases hi
  | doneStarts => cases hi
  | doneEnds => cases hi
  | doneHolds => cases hi
  | clr => cases hi

/-- The capture outputs of a run are those its capture operations emit wherever they stand. -/
theorem Trace.capture_outputs (h : Trace is s new t) :
    new.filter (·.isCapture) = (is.filter (·.isCapture)).flatMap ownOutputs := by
  induction h with
  | nil => rfl
  | @cons i is s r t new new' head tail ih =>
    have hmem := head.isCapture_of_mem
    rw [List.filter_append, ih]
    by_cases hi : i.isCapture
    · rw [List.filter_cons_of_pos hi, List.flatMap_cons, List.filter_eq_self.2 (by simpa [hi] using hmem),
        (head.of_isCapture hi).1]
    · rw [List.filter_cons_of_neg hi, List.filter_eq_nil_iff.2 (by simpa [hi] using hmem),
        List.nil_append]

/-- The playback half of a run is a run of its playback operations: it starts and ends in the same
scheduler state and emits the same playback outputs. -/
theorem Trace.playback (h : Trace is s new t) :
    ∃ u, Trace (is.filter (!·.isCapture)) s (new.filter (!·.isCapture)) u ∧
      u.scheduler = t.scheduler := by
  induction h with
  | nil s => exact ⟨s, .nil s, rfl⟩
  | @cons i is s r t new new' head tail ih =>
    obtain ⟨u, hu, hsched⟩ := ih
    have hmem := head.isCapture_of_mem
    rw [List.filter_append]
    by_cases hi : i.isCapture
    · obtain ⟨-, rfl⟩ := head.of_isCapture hi
      have hnone : new.filter (!·.isCapture) = [] :=
        List.filter_eq_nil_iff.2 (by simpa [hi] using hmem)
      rw [List.filter_cons_of_neg (by simp [hi]), hnone]
      exact ⟨_, hu.withOutputs s.outputs, hsched⟩
    · refine ⟨u, ?_, hsched⟩
      have hall : new.filter (!·.isCapture) = new :=
        List.filter_eq_self.2 (by simpa [hi] using hmem)
      rw [List.filter_cons_of_pos (by simp [hi]), hall]
      exact .cons head hu

/-- Settles O47: the capture outputs and the playback half of a run are each fixed by that half's
operations and the start state (`Trace.capture_outputs`, `Trace.playback`). -/
theorem captureAndPlaybackAreIndependent : Obligations.CaptureAndPlaybackAreIndependent := by
  intro is js s hcap hplay
  obtain ⟨new, t, ht⟩ := exists_trace is s
  obtain ⟨new', u, hu⟩ := exists_trace js s
  obtain ⟨t', ht', htsched⟩ := ht.playback
  obtain ⟨u', hu', husched⟩ := hu.playback
  rw [hplay] at ht'
  obtain ⟨hout, rfl⟩ := ht'.unique hu'
  exact ⟨t, u, new, new', ht.execAll_eq, hu.execAll_eq, htsched.symm.trans husched, ht.outputs_eq,
    hu.outputs_eq, by rw [ht.capture_outputs, hu.capture_outputs, hcap], hout⟩

/-- A legal order hands on what each source issued: the operations with that source, in its order. -/
theorem LegalOrder.filter_source {issued : Source → List Instr} {order : List (Source × Instr)}
    (h : LegalOrder issued order) (hsrc : ∀ e ∈ order, e.2.source = e.1) (src : Source) :
    (order.map (·.2)).filter (·.source = src) = issued src := by
  rw [← h src, List.filter_map]
  refine congrArg _ (List.filter_congr fun e he => ?_)
  simp [hsrc e he]

/-- Settles O48: in a legal order the enqueues are the transport's, in its order, and there is no CLR,
so R125 gives the order of the starts. -/
theorem playOrderIsArrivalOrderUnderAnyArbitration :
    Obligations.PlayOrderIsArrivalOrderUnderAnyArbitration := by
  intro issued order s hs hlegal hsrc hsession
  have hc : .clr ∉ order.map (·.2) := fun hmem => by
    have hclr : .clr ∈ (order.map (·.2)).filter (·.source = .session) :=
      List.mem_filter.2 ⟨hmem, rfl⟩
    rw [hlegal.filter_source hsrc, hsession] at hclr
    exact List.not_mem_nil hclr
  obtain ⟨new, t, ht⟩ := exists_trace (order.map (·.2)) s
  refine ⟨t, new, ht.execAll_eq, ht.outputs_eq, ?_⟩
  rw [ht.fifo hc, ← enqueuedBy_filter_transport, hlegal.filter_source hsrc]

end Sys2Proof.Machine
end

section
/-! SUPPORT. Runs beside a dutiful output device (R161(b), (c), (d)): the block and the device agree, and
every joint run goes through. -/

namespace Sys2Proof.Machine

variable {e : EnvEvent} {es : List EnvEvent} {s t : State} {d d' : Device} {new : List Output}

/-- One joint step, with the block's side given as a transition. -/
theorem jointStep_of_transition (h : Transition e.instr s new t)
    (hd : (d.onEvent e).onStarts (startsOf new) = some d') : jointStep e s d = some (t, d') := by
  rw [jointStep_of_next s t d e new h.exec_eq h.outputs_eq, hd, Option.map_some]

theorem transition_of_jointStep (h : jointStep e s d = some (t, d')) :
    ∃ new, Transition e.instr s new t ∧ (d.onEvent e).onStarts (startsOf new) = some d' := by
  obtain ⟨new, u, hu⟩ := exists_transition e.instr s
  rw [jointStep_of_next s u d e new hu.exec_eq hu.outputs_eq] at h
  obtain ⟨d'', hd, heq⟩ := Option.map_eq_some_iff.1 h
  cases heq
  exact ⟨new, hu, hd⟩

theorem jointRun_cons_eq_some (h : jointRun (e :: es) s d = some (t, d')) :
    ∃ r d₁, jointStep e s d = some (r, d₁) ∧ jointRun es r d₁ = some (t, d') := by
  obtain ⟨⟨r, d₁⟩, hstep, hrun⟩ := Option.bind_eq_some_iff.1 h
  exact ⟨r, d₁, hstep, hrun⟩

theorem jointRun_cons (hstep : jointStep e s d = some (t, d')) :
    jointRun (e :: es) s d = jointRun es t d' := by
  rw [jointRun, hstep, Option.bind_some]

theorem dutifulRun_cons (hstep : jointStep e s d = some (t, d')) :
    dutifulRun (e :: es) s d = (e.dutiful d && dutifulRun es t d') := by
  rw [dutifulRun, hstep]

/-- Without a current block the device renders none. -/
theorem DeviceAgrees.not_rendering (h : DeviceAgrees s d) (hcur : s.cur = none) :
    d.rendering = none :=
  Option.map_eq_none_iff.1 (h.trans hcur)

theorem DeviceAgrees.rendering (h : DeviceAgrees s d) {b : Block} (hcur : s.cur = some b) :
    ∃ n, d.rendering = some (n, b) := by
  obtain ⟨⟨n, c⟩, hr, rfl⟩ := Option.map_eq_some_iff.1 (h.trans hcur)
  exact ⟨n, hr⟩

/-- A device that renders none takes the one block an operation starts, and then renders it. -/
theorem jointStep_starting {b : Block} (h : Transition e.instr s [.start b] t)
    (hfree : (d.onEvent e).rendering = none) (hcur : t.cur = some b) :
    ∃ d', jointStep e s d = some (t, d') ∧ DeviceAgrees t d' := by
  have htaken : (d.onEvent e).onStarts (startsOf [.start b]) =
      some ⟨(d.onEvent e).handed + 1, .rendering (d.onEvent e).handed b⟩ := by
    rw [startsOf_start, Device.onStarts_singleton]
    exact Device.onStart_of_not_rendering _ b hfree
  refine ⟨_, jointStep_of_transition h htaken, ?_⟩
  rw [DeviceAgrees, hcur, Device.rendering_rendering, Option.map_some]

/-- An operation that starts nothing leaves the device as the event itself does. -/
theorem jointStep_quiet (h : Transition e.instr s new t) (hnew : startsOf new = [])
    (hd : DeviceAgrees t (d.onEvent e)) : ∃ d', jointStep e s d = some (t, d') ∧ DeviceAgrees t d' :=
  ⟨d.onEvent e, jointStep_of_transition h (by rw [hnew, Device.onStarts_nil]), hd⟩

/-- A dutiful event keeps the agreement of block and device: a start meets a device that renders none,
as the scheduler was Idle or the completion was the rendered block's own. -/
theorem jointStep_dutiful (hs : s.Inv) (hd : DeviceAgrees s d) (he : e.dutiful d = true) :
    ∃ t d', jointStep e s d = some (t, d') ∧ t.Inv ∧ DeviceAgrees t d' := by
  obtain ⟨new, t, h⟩ := exists_transition e.instr s
  suffices ∃ d', jointStep e s d = some (t, d') ∧ DeviceAgrees t d' by
    obtain ⟨d', hj, ha⟩ := this
    exact ⟨t, d', hj, h.inv hs, ha⟩
  have hdone (hi : e.instr = .done) : d.onEvent e = ⟨d.handed, .free⟩ := by
    obtain ⟨i, a⟩ := e
    subst hi
    exact Device.onEvent_done_of_due d a ((EnvEvent.dutiful_iff d _).1 he rfl)
  have hclr (hi : e.instr = .clr) : d.onEvent e = d.release := by rw [Device.onEvent, hi]
  generalize hi : e.instr = i at h
  have hkeep (hd : i ≠ .done) (hc : i ≠ .clr) : d.onEvent e = d :=
    Device.onEvent_of_other d e (hi ▸ hd) (hi ▸ hc)
  have hstep := h
  rw [← hi] at hstep
  cases h with
  | stateless h =>
    rw [← hkeep (by rintro rfl; cases h) (by rintro rfl; cases h)] at hd
    exact jointStep_quiet hstep (startsOf_ownOutputs i) hd
  | enqWaits b hst =>
    rw [← hkeep nofun nofun] at hd
    exact jointStep_quiet hstep rfl hd
  | enqStarts b hst hq =>
    rw [← hkeep nofun nofun] at hd
    exact jointStep_starting hstep (hd.not_rendering (hs.cur_of_idle hst)) rfl
  | doneStarts hst hq => exact jointStep_starting hstep (by rw [hdone hi]; rfl) rfl
  | doneEnds hst hq => exact jointStep_quiet hstep rfl (by rw [hdone hi]; rfl)
  | doneHolds hst =>
    refine jointStep_quiet hstep rfl ?_
    rw [hdone hi]
    exact (hs.cur_of_idle hst).symm
  | clr =>
    refine jointStep_quiet hstep rfl ?_
    rw [hclr hi, DeviceAgrees, Device.release_rendering, Option.map_none]

theorem jointRun_dutiful (hs : s.Inv) (hd : DeviceAgrees s d) (he : dutifulRun es s d = true) :
    ∃ t d', jointRun es s d = some (t, d') ∧ t.Inv ∧ DeviceAgrees t d' := by
  induction es generalizing s d with
  | nil => exact ⟨s, d, rfl, hs, hd⟩
  | cons e es ih =>
    have hfirst : e.dutiful d = true := (Bool.and_eq_true_iff.1 he).1
    obtain ⟨r, d₁, hstep, hr, hd₁⟩ := jointStep_dutiful hs hd hfirst
    rw [dutifulRun_cons hstep] at he
    rw [jointRun_cons hstep]
    exact ih hr hd₁ (Bool.and_eq_true_iff.1 he).2

theorem dutifulRun_of_append {fs : List EnvEvent} (h : dutifulRun (es ++ fs) s d = true) :
    dutifulRun es s d = true := by
  induction es generalizing s d with
  | nil => rfl
  | cons e es ih =>
    obtain ⟨hfirst, hrest⟩ := Bool.and_eq_true_iff.1 h
    refine Bool.and_eq_true_iff.2 ⟨hfirst, ?_⟩
    cases hstep : jointStep e s d with
    | none => rfl
    | some sd => rw [hstep] at hrest; exact ih hrest

/-- Settles O49: each dutiful event keeps the invariant and the agreement (`jointStep_dutiful`). -/
theorem dutifulDeviceNeverPlaysTwoBlocks : Obligations.DutifulDeviceNeverPlaysTwoBlocks :=
  fun _ _ _ => jointRun_dutiful

/-- Settles O50: the block takes a completion as that of its current block, whoever it answers, and a
device that is still rendering refuses the block started. -/
theorem staleCompletionStartsTwoBlocks : Obligations.StaleCompletionStartsTwoBlocks := by
  intro s d n a b h r hst hq hrender hne
  have hdone : Transition .done s _ _ := .doneStarts hst hq
  refine ⟨hdone.exec_eq, ?_⟩
  have hdue : d.due ≠ some a := by
    rw [d.due_of_rendering n b hrender]
    exact fun heq => hne (Option.some.inj heq).symm
  rw [jointStep_of_next s _ d ⟨.done, a⟩ _ hdone.exec_eq hdone.outputs_eq]
  simp [Device.onEvent, hdue, Device.onStart, hrender]

/-- The block's side of a joint run is a run of the events' operations. -/
theorem trace_of_jointRun (h : jointRun es s d = some (t, d')) :
    ∃ new, Trace (es.map (·.instr)) s new t := by
  induction es generalizing s d with
  | nil => cases h; exact ⟨[], .nil _⟩
  | cons e es ih =>
    obtain ⟨r, d₁, hstep, hrun⟩ := jointRun_cons_eq_some h
    obtain ⟨new, hfirst, -⟩ := transition_of_jointStep hstep
    obtain ⟨new', hrest⟩ := ih hrun
    exact ⟨new ++ new', .cons hfirst hrest⟩

end Sys2Proof.Machine
end

section
/-! SUPPORT. An environment that goes on for ever and owes the block nothing for ever (R161(e), R175). -/

namespace Sys2Proof.Machine

variable {env : Nat → EnvEvent} {s t : State} {d d' : Device} {new : List Output}

/-- The duties of R161(b), (d) and (e) on an environment without CLR, from a state that meets the
invariant beside a device that renders its current block. -/
structure Fair (env : Nat → EnvEvent) (s : State) (d : Device) : Prop where
  inv : s.Inv
  agrees : DeviceAgrees s d
  dutiful : dutifulForever env s d
  delivers : CompletionsAreDelivered env s d
  noClr : ∀ n, (env n).instr ≠ .clr

theorem envPrefix_add (env : Nat → EnvEvent) (n k : Nat) :
    envPrefix env (n + k) = envPrefix env n ++ envPrefix (fun j => env (n + j)) k := by
  rw [envPrefix, List.range_add, List.map_append, List.map_map]
  rfl

namespace Fair

theorem reaches (h : Fair env s d) (n : Nat) :
    ∃ t d', jointRun (envPrefix env n) s d = some (t, d') ∧ t.Inv ∧ DeviceAgrees t d' :=
  jointRun_dutiful h.inv h.agrees (h.dutiful n)

/-- From any later point the rest of the environment is fair too. -/
theorem later (h : Fair env s d) {n : Nat} (hrun : jointRun (envPrefix env n) s d = some (t, d')) :
    Fair (fun j => env (n + j)) t d' := by
  obtain ⟨t', d'', hrun', hinv, hagrees⟩ := h.reaches n
  obtain ⟨rfl, rfl⟩ := Prod.mk.inj (Option.some.inj (hrun'.symm.trans hrun))
  refine ⟨hinv, hagrees, fun k => ?_, fun k u d₁ m b hrunk hrender => ?_, fun k => h.noClr _⟩
  · have hduty := h.dutiful (n + k)
    rw [envPrefix_add, dutifulRun_append s t' d d'' _ _ hrun] at hduty
    exact (Bool.and_eq_true_iff.1 hduty).2
  · have hrunnk : jointRun (envPrefix env (n + k)) s d = some (u, d₁) := by
      rw [envPrefix_add, jointRun_append, hrun, Option.bind_some]
      exact hrunk
    obtain ⟨j, hj, henv⟩ := h.delivers (n + k) u d₁ m b hrunnk hrender
    have hsplit : n + (j - n) = j := by omega
    exact ⟨j - n, by omega, by rwa [hsplit]⟩

/-- While a block is current, a completion is still to come. -/
theorem exists_done (h : Fair env s d) {b : Block} (hcur : s.cur = some b) :
    ∃ m, (env m).instr = .done := by
  obtain ⟨n, hrender⟩ := h.agrees.rendering hcur
  obtain ⟨m, -, hm | hm⟩ := h.delivers 0 s d n b (jointRun_nil s d) hrender
  · exact ⟨m, by rw [hm]⟩
  · exact absurd hm (h.noClr m)

theorem clr_not_mem (h : Fair env s d) (n : Nat) :
    .clr ∉ (envPrefix env n).map (·.instr) := by
  intro hmem
  obtain ⟨e, he, hclr⟩ := List.mem_map.1 hmem
  obtain ⟨m, -, rfl⟩ := List.mem_map.1 he
  exact h.noClr m hclr

/-- However many completions are asked for, they come, unless all that waited has been started. -/
theorem completions_come (h : Fair env s d) (c : Nat) :
    ∃ m t d' new, jointRun (envPrefix env m) s d = some (t, d') ∧
      Trace ((envPrefix env m).map (·.instr)) s new t ∧
      (s.q.length ≤ (startsOf new).length ∨ c ≤ ((envPrefix env m).map (·.instr)).count .done) := by
  induction c with
  | zero => exact ⟨0, s, d, [], rfl, .nil s, .inr (Nat.zero_le _)⟩
  | succ c ih =>
    obtain ⟨m, t, d', new, hrun, htrace, hor⟩ := ih
    by_cases hlen : s.q.length ≤ (startsOf new).length
    · exact ⟨m, t, d', new, hrun, htrace, .inl hlen⟩
    have hfair := h.later hrun
    have hq : t.q ≠ [] := by
      intro hnil
      have hfifo := congrArg List.length (htrace.fifo (h.clr_not_mem m))
      simp only [hnil, List.length_append, List.length_nil] at hfifo
      omega
    obtain ⟨b, hcur⟩ := hfair.inv.cur_of_playing (hfair.inv.playing_of_q hq)
    obtain ⟨j, hj⟩ := hfair.exists_done hcur
    obtain ⟨u, d₁, hrun', -⟩ := h.reaches (m + (j + 1))
    obtain ⟨new', htrace'⟩ := trace_of_jointRun hrun'
    refine ⟨_, u, d₁, new', hrun', htrace', .inr ?_⟩
    rw [envPrefix_add, envPrefix_succ]
    simp only [List.map_append, List.count_append, List.map_cons, List.map_nil, hj,
      List.count_singleton_self]
    omega

end Fair

/-- Settles O54: the rest of the environment from the given point is fair (`Fair.later`), so as many
completions come as blocks wait there (`Fair.completions_come`), and each starts one. -/
theorem everyEnqueuedBlockIsEventuallyPlayed : Obligations.EveryEnqueuedBlockIsEventuallyPlayed := by
  intro env s d hs hd hduty hdeliver hclr n
  have hfair : Fair env s d := ⟨hs, hd, hduty, hdeliver, hclr⟩
  obtain ⟨t, d₁, hrun, -⟩ := hfair.reaches n
  have hlater := hfair.later hrun
  obtain ⟨k, u, d₂, new, hrun', htrace, hor⟩ := hlater.completions_come t.q.length
  have hc := hlater.clr_not_mem k
  have hlen : t.q.length ≤ (startsOf new).length :=
    hor.elim id fun hcount => (htrace.completions_start hlater.inv hc).elim id hcount.trans
  refine ⟨n + k, t, d₁, u, d₂, new, Nat.le_add_right n k, hrun, ?_, htrace.outputs_eq,
    htrace.queue_started hc hlen⟩
  rw [envPrefix_add, jointRun_append, hrun, Option.bind_some]
  exact hrun'

end Sys2Proof.Machine
end

section
/-! SUPPORT. Which blocks completions belong to, beside a device that has counted the blocks handed to it
(R161(b), (d)). -/

namespace Sys2Proof.Machine

variable {e : EnvEvent} {es : List EnvEvent} {s t : State} {d d' : Device} {answered : List Nat}

/-- The completions delivered so far answer blocks handed over, in rising order, and the one that is due
answers a block handed over after all of those. -/
structure Ledger (answered : List Nat) (d : Device) : Prop where
  rising : answered.Pairwise (· < ·)
  handed : ∀ k ∈ answered, k < d.handed
  due_handed : ∀ n, d.due = some n → n < d.handed
  due_later : ∀ n, d.due = some n → ∀ k ∈ answered, k < n

/-- The ledger looks only at the count and at what is due. -/
theorem Ledger.congr (h : Ledger answered d) (hhanded : d'.handed = d.handed)
    (hdue : d'.due = d.due) : Ledger answered d' := by
  obtain ⟨hrising, hle, hdueh, hduel⟩ := h
  rw [← hhanded] at hle hdueh
  rw [← hdue] at hdueh hduel
  exact ⟨hrising, hle, hdueh, hduel⟩

/-- With nothing at hand nothing is due. -/
theorem Ledger.of_free {n : Nat} (hrising : answered.Pairwise (· < ·))
    (hhanded : ∀ k ∈ answered, k < n) : Ledger answered ⟨n, .free⟩ where
  rising := hrising
  handed := hhanded
  due_handed m hm := by simp at hm
  due_later m hm := by simp at hm

/-- A completion that is due goes to the ledger's end, and nothing is due then. -/
theorem Ledger.complete (h : Ledger answered d) {a : Nat} (hdue : d.due = some a) :
    Ledger (answered ++ [a]) ⟨d.handed, .free⟩ := by
  refine .of_free ?_ ?_
  · exact List.pairwise_append.2 ⟨h.rising, List.pairwise_singleton _ _,
      fun k hk b hb => List.mem_singleton.1 hb ▸ h.due_later a hdue k hk⟩
  · intro k hk
    rcases List.mem_append.1 hk with hk | hk
    · exact h.handed k hk
    · exact List.mem_singleton.1 hk ▸ h.due_handed a hdue

theorem completionsIn_of_not_done (hi : e.instr ≠ .done) : completionsIn [e] = [] := by
  simp [completionsIn, hi]

theorem Ledger.onEvent (h : Ledger answered d) (he : e.dutiful d = true) :
    Ledger (answered ++ completionsIn [e]) (d.onEvent e) ∧ (d.onEvent e).handed = d.handed := by
  obtain ⟨i, a⟩ := e
  by_cases hdone : i = .done
  · subst hdone
    have hdue : d.due = some a := (EnvEvent.dutiful_iff d _).1 he rfl
    rw [Device.onEvent_done_of_due d a hdue]
    exact ⟨h.complete hdue, rfl⟩
  · rw [completionsIn_of_not_done hdone, List.append_nil]
    by_cases hclr : i = .clr
    · subst hclr
      exact ⟨h.congr (Device.release_handed d) (Device.release_due d), Device.release_handed d⟩
    · rw [Device.onEvent_of_other d _ hdone hclr]
      exact ⟨h, rfl⟩

/-- The block taken has the next number, which is above all those answered. -/
theorem Ledger.onStart {b : Block} (h : Ledger answered d) (hstart : d.onStart b = some d') :
    Ledger answered d' ∧ d'.handed = d.handed + 1 := by
  cases hr : d.rendering with
  | some r => simp [Device.onStart, hr] at hstart
  | none =>
    obtain rfl := Option.some.inj ((Device.onStart_of_not_rendering d b hr).symm.trans hstart)
    refine ⟨⟨h.rising, fun k hk => Nat.lt_succ_of_lt (h.handed k hk), fun n hn => ?_,
      fun n hn k hk => ?_⟩, rfl⟩
    · cases hn; exact Nat.lt_succ_self _
    · cases hn; exact h.handed k hk

theorem Ledger.onStarts {bs : List Block} (h : Ledger answered d)
    (hstarts : d.onStarts bs = some d') :
    Ledger answered d' ∧ d'.handed = d.handed + bs.length := by
  induction bs generalizing d with
  | nil => cases hstarts; exact ⟨h, rfl⟩
  | cons b bs ih =>
    obtain ⟨d₁, hfirst, hrest⟩ := Option.bind_eq_some_iff.1 hstarts
    obtain ⟨h₁, hcount⟩ := h.onStart hfirst
    obtain ⟨h', hcount'⟩ := ih h₁ hrest
    exact ⟨h', by rw [hcount', hcount, List.length_cons]; omega⟩

/-- The number of blocks started in the run so far. -/
def State.startCount (s : State) : Nat := (startsOf s.outputs).length

/-- Over a dutiful run the ledger is kept, and the device counts the starts. -/
theorem Ledger.of_jointRun (h : Ledger answered d) (hcount : d.handed = s.startCount)
    (he : dutifulRun es s d = true) (hrun : jointRun es s d = some (t, d')) :
    Ledger (answered ++ completionsIn es) d' ∧ d'.handed = t.startCount := by
  induction es generalizing s d answered with
  | nil => cases hrun; exact ⟨by rwa [completionsIn_nil, List.append_nil], hcount⟩
  | cons e es ih =>
    obtain ⟨r, d₁, hstep, hrest⟩ := jointRun_cons_eq_some hrun
    rw [dutifulRun_cons hstep] at he
    obtain ⟨hfirst, hduty⟩ := Bool.and_eq_true_iff.1 he
    obtain ⟨new, htrans, hstarts⟩ := transition_of_jointStep hstep
    obtain ⟨hev, hevcount⟩ := h.onEvent hfirst
    obtain ⟨hst, hstcount⟩ := hev.onStarts hstarts
    have hcount₁ : d₁.handed = r.startCount := by
      rw [hstcount, hevcount, hcount, State.startCount, State.startCount, htrans.outputs_eq,
        startsOf_append, List.length_append]
    have hsplit : completionsIn (e :: es) = completionsIn [e] ++ completionsIn es :=
      completionsIn_append [e] es
    rw [hsplit, ← List.append_assoc]
    exact ih hst hcount₁ hduty hrest

theorem ledger_fresh : Ledger [] ⟨0, .free⟩ :=
  .of_free List.Pairwise.nil fun _ h => absurd h List.not_mem_nil

/-- A dutiful run from reset beside a fresh device goes through, and its completions keep the ledger. -/
theorem jointRun_ledger (he : dutifulRun es State.reset ⟨0, .free⟩ = true) :
    ∃ t d', jointRun es State.reset ⟨0, .free⟩ = some (t, d') ∧
      Ledger (completionsIn es) d' ∧ d'.handed = t.startCount := by
  have hagrees : DeviceAgrees State.reset ⟨0, .free⟩ := rfl
  obtain ⟨t, d', hrun, -⟩ := jointRun_dutiful invariantHoldsAtReset hagrees he
  exact ⟨t, d', hrun, ledger_fresh.of_jointRun rfl he hrun⟩

/-- Settles O53: the ledger at the end of the run. -/
theorem dutifulCompletionsAnswerDistinctStarts :
    Obligations.DutifulCompletionsAnswerDistinctStarts := by
  intro es he
  obtain ⟨t, d', hrun, hledger, hcount⟩ := jointRun_ledger he
  exact ⟨t, d', hrun, hledger.rising, fun k hk => (hledger.handed k hk).trans_eq hcount⟩

/-- Settles O55: where the completion is presented its block is due, and the ledger says that a block
that is due has been handed over. -/
theorem completionsComeAfterTheirStarts : Obligations.CompletionsComeAfterTheirStarts := by
  intro pre post k he
  obtain ⟨u, d, hrun, hledger, hcount⟩ := jointRun_ledger (dutifulRun_of_append he)
  rw [dutifulRun_append _ _ _ _ _ _ hrun] at he
  have hduty : EnvEvent.dutiful ⟨.done, k⟩ d = true :=
    (Bool.and_eq_true_iff.1 (Bool.and_eq_true_iff.1 he).2).1
  have hdue : d.due = some k := (EnvEvent.dutiful_iff d _).1 hduty rfl
  exact ⟨u, d, hrun, (hledger.due_handed k hdue).trans_eq hcount⟩

end Sys2Proof.Machine
end

section
/-! SUPPORT. Codes, events and steps (R70, R71, R7): the decoder by code and own port, and the steps over
the presented events as a run. -/

namespace Sys2Proof

/-- An operation with its operand replaced by what stands on the data port of its type (R71). -/
def Instr.fromPorts (e : Event) : Instr → Instr
  | .fskip => .fskip
  | .enc _ => .enc e.sample
  | .dec _ => .dec e.byte
  | .fenc _ => .fenc e.samples
  | .fdec _ => .fdec e.frame
  | .enq _ => .enq e.block
  | .done => .done
  | .clr => .clr

/-- An event with an operation's code is that operation, with its operand from its own port. -/
theorem decode_of_code {e : Event} {i : Instr} (h : e.op = i.code) : decode e = i.fromPorts e := by
  cases i <;> simp [decode, h, Instr.code, Instr.fromPorts]

/-- R73: the eight codes leave no word of the port over. -/
theorem exists_code_eq (c : BitVec 3) : ∃ i : Instr, i.code = c := by
  have hall : c = 0#3 ∨ c = 1#3 ∨ c = 2#3 ∨ c = 3#3 ∨ c = 4#3 ∨ c = 5#3 ∨ c = 6#3 ∨ c = 7#3 := by
    revert c; decide
  rcases hall with rfl | rfl | rfl | rfl | rfl | rfl | rfl | rfl
  · exact ⟨.fskip, rfl⟩
  · exact ⟨.enc 0, rfl⟩
  · exact ⟨.dec 0, rfl⟩
  · exact ⟨.fenc [], rfl⟩
  · exact ⟨.fdec [], rfl⟩
  · exact ⟨.enq [], rfl⟩
  · exact ⟨.done, rfl⟩
  · exact ⟨.clr, rfl⟩

@[simp] theorem Instr.fromPorts_code (e : Event) (i : Instr) : (i.fromPorts e).code = i.code := by
  cases i <;> rfl

/-- Decoding keeps the code. -/
theorem decode_code (e : Event) : (decode e).code = e.op := by
  obtain ⟨i, hi⟩ := exists_code_eq e.op
  rw [decode_of_code hi.symm, Instr.fromPorts_code, hi]

theorem decode_eq_iff (e : Event) (i : Instr) :
    decode e = i ↔ e.op = i.code ∧ i.fromPorts e = i := by
  constructor
  · intro h
    have hop : e.op = i.code := by rw [← h, decode_code]
    exact ⟨hop, (decode_of_code hop).symm.trans h⟩
  · rintro ⟨hop, hport⟩
    exact (decode_of_code hop).trans hport

/-- Settles O2: the code is kept by decoding (`decode_code`), and with it the operand is the port's
(`decode_of_code`). -/
theorem decodeReadsTheCodeAndItsPort : Obligations.DecodeReadsTheCodeAndItsPort := by
  intro e i
  rw [decode_eq_iff]
  cases i <;> simp [Instr.fromPorts]

@[simp] theorem encode_op (i : Instr) : (encode i).op = i.code := by
  cases i <;> rfl

theorem decode_encode (i : Instr) : decode (encode i) = i := by
  rw [decode_of_code (encode_op i)]
  cases i <;> rfl

/-- Settles O3: the code finds the operation, and its own port holds the operand. -/
theorem decodeOfEncodeIsTheOperation : Obligations.DecodeOfEncodeIsTheOperation :=
  ⟨decode_encode, fun e => (encode_op _).trans (decode_code e)⟩

/-- Settles O1: each word of the table carries its row's code, which decodes to the row's operation. -/
theorem tableCodesAreTheirOperations : Obligations.TableCodesAreTheirOperations :=
  ⟨rfl, rfl, rfl, rfl, rfl, rfl, rfl, rfl⟩

namespace Machine

/-- Settles O4: the two cases of a step. -/
theorem stepHandlesTheEarliestEvent : Obligations.StepHandlesTheEarliestEvent := by
  refine ⟨fun s e rest i hin hdec => ?_, fun s => step_of_inbox_nil⟩
  rw [step_of_inbox_cons hin, hdec]
  rfl

/-- A run of the host is one step and then the rest. -/
theorem run_succ (M : Host.Core) {s t : M.State} (k : Nat) (h : M.step s = .next t) :
    M.run (k + 1) s = M.run k t := by
  simp only [Host.Core.run, h]

theorem run_inbox (es : List Event) (s : State) (h : s.inbox = es) :
    Host.Core.run core es.length s = execAll (es.map decode) (s.withInbox []) := by
  induction es generalizing s with
  | nil =>
    have hs : s.withInbox [] = s := by rw [← h]; rfl
    rw [hs]
    rfl
  | cons e rest ih =>
    obtain ⟨new, t, ht⟩ := exists_transition (decode e) (s.withInbox rest)
    have hstep : step s = .next t := (step_of_inbox_cons h).trans ht.exec_eq
    have hexec : exec (decode e) (s.withInbox []) = .next (t.withInbox []) :=
      exec_withInbox (s.withInbox rest) t (decode e) [] ht.exec_eq
    have hrest : Host.Core.run core rest.length t =
        execAll ((e :: rest).map decode) (s.withInbox []) :=
      (ih t ht.inbox_eq).trans (execAll_cons _ _ _ hexec).symm
    exact (run_succ core rest.length hstep).trans hrest

/-- Settles O6: by induction on the presented events; an operation neither reads nor writes those
still presented (`exec_withInbox`, `Transition.inbox_eq`). -/
theorem stepsRunThePresentedEvents : Obligations.StepsRunThePresentedEvents :=
  fun s => run_inbox s.inbox s rfl

/-- Settles O7: a stateless operation emits its own output, and the transitions of the other three are
those of R120. -/
theorem operationsEmitOnTheirOwnPort : Obligations.OperationsEmitOnTheirOwnPort := by
  intro i s
  obtain ⟨new, t, h⟩ := exists_transition i s
  refine ⟨t, new, h.exec_eq, h.outputs_eq, h.inbox_eq, ?_⟩
  cases h with
  | stateless h =>
    cases i with
    | fskip => exact ⟨rfl, rfl⟩
    | enc w => exact ⟨⟨_, rfl⟩, rfl⟩
    | dec b => exact ⟨⟨_, rfl⟩, rfl⟩
    | fenc blk => exact ⟨⟨_, rfl, encodeFrame_length blk⟩, rfl⟩
    | fdec f => exact ⟨⟨_, rfl, decodeFrame_length f⟩, rfl⟩
    | enq b => cases h
    | done => cases h
    | clr => cases h
  | enqWaits b hst => simp [hst]
  | enqStarts b hst hq => simp [hst]
  | doneStarts hst hq => simp [hst, hq]
  | doneEnds hst hq => simp [hq]
  | doneHolds hst => simp [hst]
  | clr => rfl

end Machine
end Sys2Proof
end

section
/-! SUPPORT. The scheduler operation by operation (R29, R120 to R128, R53, R177). -/

namespace Sys2Proof.Machine

variable {i : Instr} {is : List Instr} {s t : State} {new : List Output}

theorem exec_enq_of_playing (b : Block) (hst : s.st = .playing) :
    exec (.enq b) s = .next { s with q := s.q ++ [b] } :=
  (Transition.enqWaits b hst).exec_eq

theorem exec_enq_of_idle (b : Block) (hst : s.st = .idle) {h : Block} {r : List Block}
    (hq : s.q ++ [b] = h :: r) : exec (.enq b) s = .next
      { s with st := .playing, cur := some h, q := r, outputs := s.outputs ++ [.start h] } :=
  (Transition.enqStarts b hst hq).exec_eq

theorem exec_done_of_cons (hst : s.st = .playing) {h : Block} {r : List Block} (hq : s.q = h :: r) :
    exec .done s = .next { s with cur := some h, q := r, outputs := s.outputs ++ [.start h] } :=
  (Transition.doneStarts hst hq).exec_eq

theorem exec_done_of_nil (hst : s.st = .playing) (hq : s.q = []) :
    exec .done s = .next { s with st := .idle, cur := none } :=
  (Transition.doneEnds hst hq).exec_eq

theorem exec_done_of_idle (hst : s.st = .idle) : exec .done s = .next s :=
  (Transition.doneHolds hst).exec_eq

theorem exec_clr (s : State) : exec .clr s = .next { s with st := .idle, cur := none, q := [] } :=
  (Transition.clr s).exec_eq

/-- In the empty Idle state the block enqueued is the head. -/
theorem exec_enq_of_empty (b : Block) (hst : s.st = .idle) (hq : s.q = []) :
    exec (.enq b) s = .next
      { s with st := .playing, cur := some b, q := [], outputs := s.outputs ++ [.start b] } :=
  exec_enq_of_idle b hst (by rw [hq]; rfl)

/-- Settles O33: row by row. -/
theorem transitionTable : Obligations.TransitionTable := fun s =>
  ⟨fun b => exec_enq_of_empty b, fun b => exec_enq_of_playing b, fun _ _ hst => exec_done_of_cons hst,
    exec_done_of_nil, exec_done_of_idle, exec_clr s,
    fun _ hi => ⟨_, exec_of_stateless hi s, rfl⟩⟩

/-- Settles O34: the lengthened queue has a head, which an ENQ while Idle starts. -/
theorem enqAppendsAndStartsTheHeadWhenIdle : Obligations.EnqAppendsAndStartsTheHeadWhenIdle := by
  intro b s
  obtain ⟨h, r, hq⟩ := exists_head_of_append s.q b
  refine ⟨h, r, hq, ?_⟩
  cases hst : s.st with
  | playing => rw [exec_enq_of_playing b hst, hst]
  | idle => rw [exec_enq_of_idle b hst hq]

/-- Settles O35: CLR's end state is the empty Idle one, on which a second CLR does nothing. -/
theorem clrReachesTheResetState : Obligations.ClrReachesTheResetState :=
  fun s => ⟨_, exec_clr s, rfl, rfl, rfl, exec_clr _⟩

/-- Settles O30: the fields of R33. -/
theorem resetStateIsIdleAndEmpty : Obligations.ResetStateIsIdleAndEmpty :=
  ⟨rfl, rfl, rfl, rfl, rfl, rfl⟩

/-- Settles O36: the flag in the end state of each transition. -/
theorem playingFlagWrites : Obligations.PlayingFlagWrites := by
  refine ⟨State.playing_eq_one_iff, fun i s => ?_⟩
  obtain ⟨new, t, h⟩ := exists_transition i s
  refine ⟨t, h.exec_eq, ?_⟩
  cases h with
  | stateless h =>
    refine ⟨fun _ => rfl, ?_, ?_, ?_⟩
    · rintro b rfl; cases h
    · rintro rfl; cases h
    · rintro rfl; cases h
  | enqWaits b hst => simp [Instr.stateless, State.playing, hst]
  | enqStarts b hst hq => simp [Instr.stateless, State.playing]
  | doneStarts hst hq => simp [Instr.stateless, State.playing, hst, hq]
  | doneEnds hst hq => simp [Instr.stateless, State.playing, hq]
  | doneHolds hst => simp [Instr.stateless, State.playing, hst]
  | clr => simp [Instr.stateless, State.playing]

/-- While Playing every block enqueued waits. -/
theorem execAll_enq_of_playing (bs : List Block) (hst : s.st = .playing) :
    execAll (bs.map .enq) s = .next { s with q := s.q ++ bs } := by
  induction bs generalizing s with
  | nil => rw [List.append_nil]; rfl
  | cons b bs ih =>
    rw [List.map_cons, execAll_cons _ _ _ (exec_enq_of_playing b hst)]
    refine (ih (s := { s with q := s.q ++ [b] }) hst).trans ?_
    rw [List.append_assoc, List.singleton_append]

/-- Settles O37: the first ENQ starts its block, and the others wait (`execAll_enq_of_playing`). -/
theorem statusAfterEnqueuesAndClr : Obligations.StatusAfterEnqueuesAndClr := by
  intro b bs
  refine ⟨⟨.playing, some b, bs, [.start b], []⟩, ⟨.idle, none, [], [.start b], []⟩, ?_, rfl, rfl, rfl,
    exec_clr _, rfl, rfl, rfl⟩
  have hfirst : exec (.enq b) State.reset = .next ⟨.playing, some b, [], [.start b], []⟩ :=
    exec_enq_of_empty b rfl rfl
  rw [List.map_cons, execAll_cons _ _ _ hfirst]
  exact execAll_enq_of_playing bs rfl

/-- Without DONE and CLR a run starts a block only on its way out of Idle. -/
theorem Trace.starts_le (h : Trace is s new t) (hd : .done ∉ is) (hc : .clr ∉ is) :
    (startsOf new).length ≤ if s.st = .idle then 1 else 0 := by
  induction h with
  | nil => exact Nat.zero_le _
  | @cons i is s r t new new' head tail ih =>
    obtain ⟨hdi, hdis⟩ := List.ne_and_not_mem_of_not_mem_cons hd
    obtain ⟨hci, hcis⟩ := List.ne_and_not_mem_of_not_mem_cons hc
    have hrest := ih hdis hcis
    rw [startsOf_append, List.length_append]
    cases head with
    | stateless => rw [startsOf_ownOutputs]; simpa using hrest
    | enqWaits b hst => simpa using hrest
    | enqStarts b hst hq => simpa [hst] using hrest
    | doneStarts => exact absurd rfl hdi
    | doneEnds => exact absurd rfl hdi
    | doneHolds => exact absurd rfl hdi
    | clr => exact absurd rfl hci

/-- Settles O40: by induction on the run, operation by operation. -/
theorem startsAreSeparatedByDoneOrClr : Obligations.StartsAreSeparatedByDoneOrClr := by
  intro is s hd hc
  obtain ⟨new, t, ht⟩ := exists_trace is s
  exact ⟨t, new, ht.execAll_eq, ht.outputs_eq, ht.starts_le hd hc⟩

/-- Settles O41: a state that a run reaches meets the invariant, so with a block waiting it is Playing
and DONE starts the head. -/
theorem playbackIsGapless : Obligations.PlaybackIsGapless := by
  intro is t hrun
  obtain ⟨new, ht⟩ := trace_of_execAll hrun
  have hinv := ht.inv invariantHoldsAtReset
  refine ⟨fun hcur => hinv.q_of_idle (hinv.idle_of_cur hcur), fun h r hq => ?_⟩
  have hst := hinv.playing_of_q (by rw [hq]; exact List.cons_ne_nil h r)
  exact ⟨_, exec_done_of_cons hst hq, rfl, rfl, rfl⟩

/-- A run of two operations. -/
theorem execAll_pair {i j : Instr} {r : State} (hi : exec i s = .next r) (hj : exec j r = .next t) :
    execAll [i, j] s = .next t := by
  rw [execAll_cons s r _ hi, execAll_cons r t _ hj, execAll_nil]

/-- CLR leaves the empty Idle state, in which a block enqueued starts at once. -/
theorem execAll_clr_enq (b : Block) (s : State) : execAll [.clr, .enq b] s = .next
    { s with st := .playing, cur := some b, q := [], outputs := s.outputs ++ [.start b] } :=
  execAll_pair (exec_clr s) (exec_enq_of_empty b rfl rfl)

/-- Settles O44: the block that ENQ and DONE start in either order is the head of the queue, or the
enqueued one if nothing waited. -/
theorem enqAndDoneCommute : Obligations.EnqAndDoneCommute := by
  refine ⟨fun b s hst => ?_, fun b s => ?_⟩
  · obtain ⟨h, r, hq⟩ := exists_head_of_append s.q b
    have henq : execAll [.enq b, .done] s = .next
        { s with cur := some h, q := r, outputs := s.outputs ++ [.start h] } :=
      execAll_pair (exec_enq_of_playing b hst)
        (exec_done_of_cons (s := { s with q := s.q ++ [b] }) hst hq)
    refine ⟨_, h, henq, ?_, rfl⟩
    cases hs : s.q with
    | nil =>
      rw [hs] at hq
      obtain ⟨rfl, rfl⟩ := List.cons.inj hq
      rw [execAll_pair (exec_done_of_nil hst hs)
        (exec_enq_of_empty (s := { s with st := .idle, cur := none }) b rfl hs), hst]
    | cons h' r' =>
      rw [hs] at hq
      obtain ⟨rfl, rfl⟩ := List.cons.inj hq
      exact execAll_pair (exec_done_of_cons hst hs) (exec_enq_of_playing
        (s := { s with cur := some h', q := r', outputs := s.outputs ++ [.start h'] }) b hst)
  · obtain ⟨t, ht⟩ := exec_exists_next (.enq b) s
    exact ⟨_, _, execAll_clr_enq b s, rfl, rfl, execAll_pair ht (exec_clr t), rfl⟩

/-- Under the invariant a DONE starts the head of the queue if there is one, and nothing else. -/
theorem exec_done_outputs (hs : s.Inv) : ∃ t, exec .done s = .next t ∧
    t.outputs = s.outputs ++ s.q.head?.toList.map .start := by
  obtain ⟨new, t, h⟩ := exists_transition .done s
  refine ⟨t, h.exec_eq, h.outputs_eq.trans (congrArg _ ?_)⟩
  cases h with
  | stateless h => cases h
  | doneStarts hst hq => rw [hq]; rfl
  | doneEnds hst hq => rw [hq]; rfl
  | doneHolds hst => rw [hs.q_of_idle hst]; rfl

/-- Under the invariant an ENQ starts its block if the scheduler is Idle, and nothing else. -/
theorem exec_enq_outputs (b : Block) (hs : s.Inv) : ∃ t, exec (.enq b) s = .next t ∧
    t.outputs = s.outputs ++ if s.st = .idle then [.start b] else [] := by
  cases hst : s.st with
  | idle => exact ⟨_, exec_enq_of_empty b hst (hs.q_of_idle hst), rfl⟩
  | playing => exact ⟨_, exec_enq_of_playing b hst, (List.append_nil _).symm⟩

/-- Settles O45: a CLR ends in the empty Idle state whatever came before it, and what came before it
has emitted what it emits alone. -/
theorem clrRaces : Obligations.ClrRaces := by
  intro b s hs
  obtain ⟨t, ht, htout⟩ := exec_done_outputs hs
  obtain ⟨v, hv, hvout⟩ := exec_enq_outputs b hs
  exact ⟨_, _, _, _, execAll_pair ht (exec_clr t), rfl,
    execAll_pair (exec_clr s) (exec_done_of_idle rfl), rfl, htout, rfl,
    execAll_pair hv (exec_clr v), rfl, hvout, execAll_clr_enq b s, rfl, rfl⟩

end Sys2Proof.Machine
end

section
/-! SUPPORT. Capture cycles (R157), and the frame operations on joined operands (R103). -/

namespace Sys2Proof.Machine

/-- Settles O28: FSKIP and FENC are what the capture device delivers. -/
theorem captureCycleEmitsOneFrameOrNone : Obligations.CaptureCycleEmitsOneFrameOrNone := by
  intro p i s hi
  cases i with
  | fskip => exact ⟨s, exec_fskip_eq s, rfl, .inl ⟨rfl, rfl⟩⟩
  | fenc blk =>
    have hlen : blk.length = p.frameLen := of_decide_eq_true hi
    exact ⟨_, exec_fenc_eq s blk, rfl,
      .inr ⟨blk, encodeFrame blk, rfl, (encodeFrame_length blk).trans hlen, rfl⟩⟩
  | enc w => cases hi
  | dec b => cases hi
  | fdec f => cases hi
  | enq b => cases hi
  | done => cases hi
  | clr => cases hi

/-- Settles O26: both operations map their operand. -/
theorem frameOperationsAreLanewise : Obligations.FrameOperationsAreLanewise := by
  refine ⟨fun x y s => ⟨encodeFrame x, encodeFrame y, exec_fenc_eq s x, exec_fenc_eq s y,
    encodeFrame_length x, ?_⟩, fun x y s => ⟨decodeFrame x, decodeFrame y, exec_fdec_eq s x,
    exec_fdec_eq s y, decodeFrame_length x, ?_⟩⟩
  · have happend : encodeFrame (x ++ y) = encodeFrame x ++ encodeFrame y := List.map_append
    rw [← happend]
    exact exec_fenc_eq s (x ++ y)
  · have happend : decodeFrame (x ++ y) = decodeFrame x ++ decodeFrame y := List.map_append
    rw [← happend]
    exact exec_fdec_eq s (x ++ y)

end Sys2Proof.Machine
end

section
/-! SUPPORT. Finite values of the two bounds that this hardware does not have (R43, D10). -/

namespace Sys2Proof.Machine

/-- Without a length bound the check lets every operand through. -/
theorem withLength_none {p : Config.Params} (hp : p.maxBlockLen = none) (n : Nat) (r : Result) :
    withLength p n r = r := by
  simp [withLength, withinBound, hp]

/-- Without a capacity the check lets every ENQ through. -/
theorem withRoom_none {p : Config.Params} (hp : p.queueCap = none) (s : State) (r : Result) :
    withRoom p s r = r := by
  simp [withRoom, queueFull, hp]

/-- Settles O51: without a length bound the capacity check alone decides. -/
theorem finiteQueueCapRefusesWhenFull : Obligations.FiniteQueueCapRefusesWhenFull := by
  intro p k b s hcap hbound
  rw [enqAt, withLength_none hbound, withRoom_finite hcap]
  exact ⟨fun hfull => if_pos hfull, fun hroom => if_neg (Nat.not_le_of_lt hroom)⟩

/-- Settles O52: without a capacity the length check alone decides. -/
theorem finiteLengthBoundRefusesLongerOperands :
    Obligations.FiniteLengthBoundRefusesLongerOperands := by
  intro p k s hbound hcap he0
  refine ⟨fun blk => ?_, fun f => withLength_finite hbound _ _, fun b => ?_⟩
  · rw [fencAt, he0]
    exact withLength_finite hbound _ _
  · rw [enqAt, withRoom_none hcap]
    exact withLength_finite hbound _ _

end Sys2Proof.Machine
end

section
/-! SUPPORT. The segment cells of R82 and their midpoints on biased magnitudes, and what the two codec
functions are in terms of them. -/

namespace Sys2Proof.Machine

/-- The cell of a biased magnitude within its segment, counted with its leading bit: 16 to 31. -/
def cellOf (x : Nat) : Nat := x / 2 ^ (exponentOf x + 3)

/-- The midpoint of the cell of a biased magnitude: what R85 reconstructs. -/
def midpointOf (x : Nat) : Nat := (2 * cellOf x + 1) * 2 ^ (exponentOf x + 2)

/-- The biased magnitudes that R80 step 4 can give. -/
def IsBiased (x : Nat) : Prop := 132 ≤ x ∧ x ≤ 32767

theorem isBiased_biasedMagnitude (m : Int) : IsBiased (biasedMagnitude m) := biasedMagnitude_range m

section
variable {x y : Nat}

theorem IsBiased.segment (hx : IsBiased x) :
    exponentOf x ≤ 7 ∧ 2 ^ (exponentOf x + 7) ≤ x ∧ x < 2 ^ (exponentOf x + 8) :=
  exponentOf_cell x (le_trans (by decide) hx.1) (Nat.lt_succ_of_le hx.2)

theorem IsBiased.cellOf_range (hx : IsBiased x) : 16 ≤ cellOf x ∧ cellOf x ≤ 31 := by
  obtain ⟨-, lo, hi⟩ := hx.segment
  obtain ⟨hcell, hk⟩ := mantissaOf_three lo hi
  have hcell' : mantissaOf 3 x (exponentOf x) + 16 = cellOf x := hcell
  omega

theorem IsBiased.mantissaOf_eq (hx : IsBiased x) :
    mantissaOf 3 x (exponentOf x) = cellOf x - 16 := by
  obtain ⟨-, lo, hi⟩ := hx.segment
  exact Nat.eq_sub_of_add_eq (mantissaOf_three lo hi).1

/-- A biased magnitude lies in its cell (R82). -/
theorem cellOf_bounds (x : Nat) : cellOf x * 2 ^ (exponentOf x + 3) ≤ x ∧
    x < (cellOf x + 1) * 2 ^ (exponentOf x + 3) := by
  refine ⟨Nat.div_mul_le_self _ _, ?_⟩
  rw [Nat.mul_comm]
  exact Nat.lt_mul_div_succ x (by positivity)

/-- A biased magnitude is within half a cell of the midpoint (R88). -/
theorem midpointOf_near (x : Nat) : midpointOf x ≤ x + 2 ^ (exponentOf x + 2) ∧
    x + 1 ≤ midpointOf x + 2 ^ (exponentOf x + 2) := by
  obtain ⟨lo, hi⟩ := cellOf_bounds x
  have hcell : 2 ^ (exponentOf x + 3) = 2 * 2 ^ (exponentOf x + 2) := pow_succ' ..
  have hmid : midpointOf x = 2 * (cellOf x * 2 ^ (exponentOf x + 2)) + 2 ^ (exponentOf x + 2) := by
    rw [midpointOf]; ring
  have hlo : cellOf x * 2 ^ (exponentOf x + 3) = 2 * (cellOf x * 2 ^ (exponentOf x + 2)) := by
    rw [hcell]; ring
  rw [Nat.add_mul, Nat.one_mul] at hi
  omega

/-- The midpoint lies in the segment. -/
theorem IsBiased.midpointOf_segment (hx : IsBiased x) :
    33 * 2 ^ (exponentOf x + 2) ≤ midpointOf x ∧ midpointOf x ≤ 63 * 2 ^ (exponentOf x + 2) := by
  obtain ⟨lo, hi⟩ := hx.cellOf_range
  exact ⟨Nat.mul_le_mul_right _ (by omega), Nat.mul_le_mul_right _ (by omega)⟩

theorem IsBiased.le_midpointOf (hx : IsBiased x) : 132 ≤ midpointOf x := by
  have hpos : 2 ^ 2 ≤ 2 ^ (exponentOf x + 2) := Nat.pow_le_pow_right (by decide) (Nat.le_add_left ..)
  have := hx.midpointOf_segment.1
  omega

theorem IsBiased.exponentOf_mono (hx : IsBiased x) (hy : IsBiased y) (h : x ≤ y) :
    exponentOf x ≤ exponentOf y := by
  obtain ⟨-, lo, -⟩ := hx.segment
  obtain ⟨-, -, hi⟩ := hy.segment
  have := (Nat.pow_lt_pow_iff_right (by decide)).1 ((lo.trans h).trans_lt hi)
  omega

/-- In one segment the cells are in order, and a later segment is above the whole of an earlier one. -/
theorem IsBiased.midpointOf_mono (hx : IsBiased x) (hy : IsBiased y) (h : x ≤ y) :
    midpointOf x ≤ midpointOf y := by
  rcases (hx.exponentOf_mono hy h).eq_or_lt with heq | hlt
  · have hcell : cellOf x ≤ cellOf y := by
      rw [cellOf, cellOf, heq]
      exact Nat.div_le_div_right h
    rw [midpointOf, midpointOf, heq]
    exact Nat.mul_le_mul_right _ (by omega)
  · have hstep : 2 ^ (exponentOf x + 3) ≤ 2 ^ (exponentOf y + 2) :=
      Nat.pow_le_pow_right (by decide) (by omega)
    have hdouble : 2 ^ (exponentOf x + 3) = 2 * 2 ^ (exponentOf x + 2) := pow_succ' ..
    have hupper := hx.midpointOf_segment.2
    have hlower := hy.midpointOf_segment.1
    omega

end

/-- The value of a byte whose complement has the given fields (R85). -/
theorem decf_of_toNat {b : Byte} {s e k : Nat} (hs : s ≤ 1) (he : e ≤ 7) (hk : k ≤ 15)
    (h : b.toNat = 255 - (s * 128 + e * 16 + k)) :
    decf b = if s = 1 then 132 - (((2 * k + 33) * 2 ^ (e + 2) : Nat) : Int)
      else (((2 * k + 33) * 2 ^ (e + 2) : Nat) : Int) - 132 := by
  have hcompl : (not8 b).toNat = s * 128 + e * 16 + k := by rw [not8_toNat, h]; omega
  obtain ⟨hsign, hexp, hmant⟩ := fields_of_toNat_eq he hk hcompl
  rw [decf_eq, reconstruct_eq, hsign, hexp, hmant]

/-- The wire byte of an integer by segment and cell. -/
theorem encf_toNat_cell (m : Int) : (encf m).toNat =
    255 - ((if m < 0 then 1 else 0) * 128 + segmentOf m * 16 + (cellOf (biasedMagnitude m) - 16)) := by
  have hx := isBiased_biasedMagnitude m
  rw [encf_toNat, hx.mantissaOf_eq, segmentOf]
  split <;> omega

theorem segmentOf_le (m : Int) : segmentOf m ≤ 7 := (isBiased_biasedMagnitude m).segment.1

/-- The round trip in the integer domain: the cell's midpoint without the bias, with the sign. -/
theorem decf_encf (m : Int) : decf (encf m) =
    if m < 0 then 132 - (midpointOf (biasedMagnitude m) : Int)
      else (midpointOf (biasedMagnitude m) : Int) - 132 := by
  obtain ⟨lo, hi⟩ := (isBiased_biasedMagnitude m).cellOf_range
  have hmid : (2 * (cellOf (biasedMagnitude m) - 16) + 33) * 2 ^ (segmentOf m + 2) =
      midpointOf (biasedMagnitude m) := by
    rw [midpointOf, segmentOf]
    congr 1
    omega
  rw [decf_of_toNat (by split <;> decide) (segmentOf_le m) (by omega) (encf_toNat_cell m), hmid]
  by_cases hm : m < 0
  · simp only [hm, if_true]
  · simp only [hm, if_false]; rfl

/-- R85's magnitude is the midpoint of the cell that the fields name. -/
theorem reconstruct_cell (p : Byte) :
    exponentOf (reconstruct p) = exponentField p ∧ cellOf (reconstruct p) = mantissaField p + 16 := by
  have hk := mantissaField_le p
  have hpos : 0 < 2 ^ (exponentField p + 2) := by positivity
  have h3 : 2 ^ (exponentField p + 3) = 2 * 2 ^ (exponentField p + 2) := pow_succ' ..
  have h7 : 2 ^ (exponentField p + 7) = 32 * 2 ^ (exponentField p + 2) := by ring
  have h8 : 2 ^ (exponentField p + 8) = 64 * 2 ^ (exponentField p + 2) := by ring
  have hexp : exponentOf (reconstruct p) = exponentField p := by
    refine exponentOf_unique ?_ ?_ (exponentField_le p)
    · rw [h7, reconstruct_eq]
      exact Nat.mul_le_mul_right _ (by omega)
    · rw [h8, reconstruct_eq]
      exact Nat.mul_lt_mul_of_pos_right (by omega) hpos
  refine ⟨hexp, ?_⟩
  rw [cellOf, hexp, h3, reconstruct_eq]
  apply Nat.div_eq_of_lt_le
  · calc (mantissaField p + 16) * (2 * 2 ^ (exponentField p + 2))
      _ = (2 * mantissaField p + 32) * 2 ^ (exponentField p + 2) := by ring
      _ ≤ _ := Nat.mul_le_mul_right _ (by omega)
  · calc (2 * mantissaField p + 33) * 2 ^ (exponentField p + 2)
      _ < (2 * mantissaField p + 34) * 2 ^ (exponentField p + 2) :=
        Nat.mul_lt_mul_of_pos_right (by omega) hpos
      _ = _ := by ring

/-- Encoding a decoded byte finds its exponent and mantissa again (R88). -/
theorem encf_decf_toNat (b : Byte) : (encf (decf b)).toNat =
    255 - ((if decf b < 0 then 1 else 0) * 128 + exponentField (not8 b) * 16 +
      mantissaField (not8 b)) := by
  have ht := reconstruct_range (not8 b)
  obtain ⟨hexp, hcell⟩ := reconstruct_cell (not8 b)
  have hmag : biasedMagnitude (decf b) = reconstruct (not8 b) := by
    rw [biasedMagnitude_eq, decf_eq]
    split <;> omega
  rw [encf_toNat_cell, segmentOf, hmag, hexp, hcell, Nat.add_sub_cancel]

/-- A byte with the sign bit clear has a negative value, but for 0x7F, the negative zero. -/
theorem decf_neg_iff {b : Byte} (hb : b ≠ 0x7F#8) : decf b < 0 ↔ signField (not8 b) = 1 := by
  have hs := signField_le (not8 b)
  have ht := reconstruct_range (not8 b)
  obtain ⟨hexp, hcell⟩ := reconstruct_cell (not8 b)
  have hne : signField (not8 b) = 1 → reconstruct (not8 b) ≠ 132 := by
    intro hsign hzero
    rw [hzero] at hexp hcell
    have he : exponentOf 132 = 0 := rfl
    have hc : cellOf 132 = 16 := rfl
    have hfields := toNat_eq_fields (not8 b)
    rw [not8_toNat] at hfields
    apply hb
    apply BitVec.eq_of_toNat_eq
    show b.toNat = 127
    omega
  rw [decf_eq]
  split <;> omega

/-- Every byte but the negative zero survives decoding and encoding (R88). -/
theorem encf_decf {b : Byte} (hb : b ≠ 0x7F#8) : encf (decf b) = b := by
  have hs := signField_le (not8 b)
  have hfields := toNat_eq_fields (not8 b)
  rw [not8_toNat] at hfields
  apply BitVec.eq_of_toNat_eq
  rw [encf_decf_toNat]
  simp only [decf_neg_iff hb]
  split <;> omega

theorem decf_zeros : decf 0xFF#8 = 0 ∧ decf 0x7F#8 = 0 := by decide

theorem decf_extremes : decf 0x80#8 = 32124 ∧ decf 0x00#8 = -32124 := by decide

theorem encf_zero : encf 0 = 0xFF#8 := by decide

end Sys2Proof.Machine
end

section
/-! SUPPORT. The encoder's properties (R80 to R83) and the decoder's (R63, R86, R87). -/

namespace Sys2Proof.Machine

/-- Settles O8: segment and cell of the operand's biased magnitude. -/
theorem encEmitsTheCodeOfTheCell : Obligations.EncEmitsTheCodeOfTheCell := by
  intro w s
  have hx := isBiased_biasedMagnitude w.toInt
  obtain ⟨lo, hi⟩ := hx.cellOf_range
  obtain ⟨hle, hlt⟩ := cellOf_bounds (biasedMagnitude w.toInt)
  have he := segmentOf_le w.toInt
  rw [← segmentOf] at hle hlt
  have hcell (j : Nat) (hj : 16 ≤ j) : 2 ^ (segmentOf w.toInt + 7) +
      (j - 16) * 2 ^ (segmentOf w.toInt + 3) = j * 2 ^ (segmentOf w.toInt + 3) := by
    obtain ⟨i, rfl⟩ := Nat.exists_eq_add_of_le hj
    rw [Nat.add_sub_cancel_left]
    ring
  have hnext : cellOf (biasedMagnitude w.toInt) - 16 + 1 =
      cellOf (biasedMagnitude w.toInt) + 1 - 16 := by omega
  refine ⟨segmentOf w.toInt, cellOf (biasedMagnitude w.toInt) - 16, he, by omega, ?_, ?_, ?_⟩
  · rw [hcell _ lo, ← biasedMagnitude_eq]
    exact hle
  · rw [hnext, hcell _ (by omega), ← Nat.add_assoc (min _ _) 132 1, ← biasedMagnitude_eq]
    exact hlt
  · have hbyte : encf w.toInt = BitVec.ofNat 8 ((if w.toInt < 0 then 0x7F else 0xFF) -
        16 * segmentOf w.toInt - (cellOf (biasedMagnitude w.toInt) - 16)) := by
      apply BitVec.eq_of_toNat_eq
      rw [encf_toNat_cell, BitVec.toNat_ofNat]
      split <;> omega
    rw [exec_enc_eq, hbyte]
    rfl

/-- Settles O9: the segment of `IsBiased.segment` bounds the logarithm and every set bit. -/
theorem exponentIsTheHighestSetBit : Obligations.ExponentIsTheHighestSetBit := by
  intro x hlo hhi
  have hx : IsBiased x := ⟨hlo, hhi⟩
  obtain ⟨he, hle, hlt⟩ := hx.segment
  have hne : x ≠ 0 := by omega
  have hlog : Nat.log2 x = exponentOf x + 7 := (Nat.log2_eq_iff hne).2 ⟨hle, hlt⟩
  refine ⟨by omega, by omega, by omega, ?_, fun e _ hbit => ?_, hx.cellOf_range.1, hx.mantissaOf_eq⟩
  · rw [← hlog]
    exact Nat.testBit_log2 hne
  · have := (Nat.pow_lt_pow_iff_right (by decide)).1
      ((Nat.ge_two_pow_of_testBit hbit).trans_lt hlt)
    omega

theorem biasedMagnitude_clipped {m : Int} (h : 32635 ≤ m.natAbs) : biasedMagnitude m = 32767 := by
  rw [biasedMagnitude_eq]; omega

/-- At the clip the exponent is 7 and the mantissa 15. -/
theorem encf_toNat_clipped {m : Int} (h : 32635 ≤ m.natAbs) :
    (encf m).toNat = if m < 0 then 0 else 128 := by
  have hcell : cellOf 32767 = 31 := rfl
  have hexp : exponentOf 32767 = 7 := rfl
  rw [encf_toNat_cell, segmentOf, biasedMagnitude_clipped h, hcell, hexp]
  split <;> rfl

theorem encf_of_clip_le {m : Int} (h : 32635 ≤ m) : encf m = 0x80#8 := by
  apply BitVec.eq_of_toNat_eq
  rw [encf_toNat_clipped (by omega), if_neg (by omega)]
  rfl

theorem encf_of_le_neg_clip {m : Int} (h : m ≤ -32635) : encf m = 0x00#8 := by
  apply BitVec.eq_of_toNat_eq
  rw [encf_toNat_clipped (by omega), if_pos (by omega)]
  rfl

/-- Settles O10: every clipped magnitude has the same segment and cell. -/
theorem encoderSaturates : Obligations.EncoderSaturates :=
  ⟨fun _ => encf_of_clip_le, fun _ => encf_of_le_neg_clip⟩

/-- Complementing bit 7 of a byte adds 128 to it, with the carry dropped. -/
theorem xor_signBit (b : Byte) : b ^^^ 0x80#8 = b + 0x80#8 := by
  revert b; decide

theorem xor_signBit_toNat (b : Byte) : (b ^^^ 0x80#8).toNat = (b.toNat + 128) % 256 := by
  rw [xor_signBit, BitVec.toNat_add]
  rfl

theorem biasedMagnitude_neg (m : Int) : biasedMagnitude (-m) = biasedMagnitude m := by
  rw [biasedMagnitude_eq, biasedMagnitude_eq, Int.natAbs_neg]

/-- Settles O11: the magnitude, and with it segment and cell, does not depend on the sign. -/
theorem encoderIsSignSymmetric : Obligations.EncoderIsSignSymmetric := by
  intro m hm
  have he := segmentOf_le m
  have hk := (isBiased_biasedMagnitude m).cellOf_range
  have hseg : segmentOf (-m) = segmentOf m := congrArg exponentOf (biasedMagnitude_neg m)
  have hneg : -m < 0 ↔ ¬ m < 0 := by omega
  apply BitVec.eq_of_toNat_eq
  rw [xor_signBit_toNat, encf_toNat_cell, encf_toNat_cell, biasedMagnitude_neg, hseg]
  by_cases hsign : m < 0
  · rw [if_neg (by rwa [hneg, not_not]), if_pos hsign]
    omega
  · rw [if_pos (hneg.2 hsign), if_neg hsign]
    omega

/-- Settles O12: a byte is the code of its own decoded value, and the negative zero that of -1. -/
theorem everyByteIsEmittedByEnc : Obligations.EveryByteIsEmittedByEnc := by
  intro b
  by_cases hb : b = 0x7F#8
  · have hcode : encf (0xFFFF#16 : LinWord).toInt = b := by rw [hb]; decide
    exact ⟨0xFFFF#16, fun s => by rw [exec_enc_eq, hcode]; rfl⟩
  · have hcode : encf (toBits16 (decf b)).toInt = b := by rw [toBits16_decf_toInt, encf_decf hb]
    exact ⟨toBits16 (decf b), fun s => by rw [exec_enc_eq, hcode]; rfl⟩

/-- Settles O13: midpoints are in the order of magnitudes, and the sign turns the order round. -/
theorem roundTripIsMonotone : Obligations.RoundTripIsMonotone := by
  intro m m' h
  have hx := isBiased_biasedMagnitude m
  have hx' := isBiased_biasedMagnitude m'
  have hbase := hx.le_midpointOf
  have hbase' := hx'.le_midpointOf
  rw [decf_encf, decf_encf]
  by_cases hm : m < 0
  · by_cases hm' : m' < 0
    · have hmag : biasedMagnitude m' ≤ biasedMagnitude m := by
        rw [biasedMagnitude_eq, biasedMagnitude_eq]; omega
      have hmid := hx'.midpointOf_mono hx hmag
      rw [if_pos hm, if_pos hm']
      omega
    · rw [if_pos hm, if_neg hm']
      omega
  · have hm' : ¬ m' < 0 := by omega
    have hmag : biasedMagnitude m ≤ biasedMagnitude m' := by
      rw [biasedMagnitude_eq, biasedMagnitude_eq]; omega
    have hmid := hx.midpointOf_mono hx' hmag
    rw [if_neg hm, if_neg hm']
    omega

/-- Complementing bit 7 keeps the magnitude and turns the sign round. -/
theorem decf_xor_signBit (b : Byte) : decf (b ^^^ 0x80#8) = -decf b := by
  have hs := signField_le (not8 b)
  have he := exponentField_le (not8 b)
  have hk := mantissaField_le (not8 b)
  have hb := toNat_eq_fields (not8 b)
  rw [not8_toNat] at hb
  have hflip := xor_signBit_toNat b
  rw [decf_of_toNat (b := b ^^^ 0x80#8) (s := 1 - signField (not8 b)) (by omega) he hk (by omega),
    decf_of_toNat (b := b) hs he hk (by omega)]
  split <;> split <;> omega

/-- A value has one code, but for zero, which has two. -/
theorem decf_injective {b b' : Byte} (hb : b ≠ 0x7F#8) (hb' : b' ≠ 0x7F#8)
    (h : decf b = decf b') : b = b' := by
  rw [← encf_decf hb, h, encf_decf hb']

/-- The bytes that decode as the negative zero does are the two codes of zero. -/
theorem eq_zero_code_of_decf {b : Byte} (hb : b ≠ 0x7F#8) (h : decf b = decf 0x7F#8) :
    b = 0xFF#8 :=
  decf_injective hb (by decide) (h.trans (decf_zeros.2.trans decf_zeros.1.symm))

/-- Settles O15: a byte is recovered from its value by encoding (`encf_decf`). -/
theorem decoderRangeAndDistinctValues : Obligations.DecoderRangeAndDistinctValues := by
  refine ⟨decf_extremes.1, decf_extremes.2, decf_xor_signBit,
    fun b => ⟨(decf_range b).1, (decf_range b).2, toBits16_decf_toInt b⟩, fun b b' h => ?_,
    decf_zeros⟩
  by_cases hb : b = 0x7F#8
  · by_cases hb' : b' = 0x7F#8
    · exact .inl (hb.trans hb'.symm)
    · exact .inr (.inr ⟨hb, eq_zero_code_of_decf hb' (hb ▸ h.symm)⟩)
  · by_cases hb' : b' = 0x7F#8
    · exact .inr (.inl ⟨eq_zero_code_of_decf hb (hb' ▸ h), hb'⟩)
    · exact .inl (decf_injective hb hb' h)

/-- Settles O17: the sign is bit 7 of the complemented byte, and the reconstructed magnitude is not
below the bias. -/
theorem signConvention : Obligations.SignConvention := by
  refine ⟨fun m => ?_, fun b hb => ?_, fun b hb => ?_, fun b => ?_, decf_zeros⟩
  · have he := segmentOf_le m
    have hk := (isBiased_biasedMagnitude m).cellOf_range
    rw [signField_eq, encf_toNat_cell]
    split <;> omega
  · have ht := (reconstruct_range (not8 b)).1
    rw [decf_eq, signField_eq, not8_toNat, if_pos (by omega)]
    omega
  · have ht := (reconstruct_range (not8 b)).1
    rw [decf_eq, signField_eq, not8_toNat, if_neg (by omega)]
    omega
  · rw [decf_extremes.1, decf_extremes.2]
    exact decf_range b

end Sys2Proof.Machine
end

section
/-! SUPPORT. The round trip and its error (R88), the second pass, and the literal reading of encode
step 6 (R91). -/

namespace Sys2Proof.Machine

/-- The error of an unclipped integer, by its sign: half a cell, the sample's own place counted once. -/
theorem roundTrip_error {m : Int} (hm : |m| ≤ 32635) :
    (0 ≤ m → -(2 ^ (segmentOf m + 2) - 1) ≤ decf (encf m) - m ∧
      decf (encf m) - m ≤ 2 ^ (segmentOf m + 2)) ∧
    (m < 0 → -2 ^ (segmentOf m + 2) ≤ decf (encf m) - m ∧
      decf (encf m) - m ≤ 2 ^ (segmentOf m + 2) - 1) := by
  have hmag := biasedMagnitude_eq m
  obtain ⟨hlo, hhi⟩ := midpointOf_near (biasedMagnitude m)
  rw [← segmentOf] at hlo hhi
  have hcast : (2 : Int) ^ (segmentOf m + 2) = ((2 ^ (segmentOf m + 2) : Nat) : Int) := by
    push_cast; rfl
  rw [abs_le] at hm
  rw [decf_encf, hcast]
  refine ⟨fun hsign => ?_, fun hsign => ?_⟩
  · rw [if_neg (by omega)]
    omega
  · rw [if_pos hsign]
    omega

theorem abs_roundTrip_error {m : Int} (hm : |m| ≤ 32635) :
    |decf (encf m) - m| ≤ 2 ^ (segmentOf m + 2) := by
  obtain ⟨hpos, hneg⟩ := roundTrip_error hm
  have hunit : (0 : Int) < 2 ^ (segmentOf m + 2) := by positivity
  rw [abs_le]
  by_cases hsign : m < 0
  · have := hneg hsign
    omega
  · have := hpos (by omega)
    omega

/-- The bound of a magnitude: below the end of segment `j` the error is at most half of its cell. -/
theorem abs_roundTrip_error_of_segment {m : Int} {j : Nat} (hj : j ≤ 7)
    (hm : |m| ≤ 2 ^ (j + 8) - 133) : |decf (encf m) - m| ≤ 2 ^ (j + 2) := by
  have hcast : (2 : Int) ^ (j + 8) = ((2 ^ (j + 8) : Nat) : Int) := by push_cast; rfl
  have htop : 2 ^ (j + 8) ≤ 2 ^ 15 := Nat.pow_le_pow_right (by decide) (by omega)
  have hx := (isBiased_biasedMagnitude m).segment.2.1
  have hmag := biasedMagnitude_eq m
  rw [hcast, abs_le] at hm
  have hseg : segmentOf m ≤ j := by
    have hlt : 2 ^ (exponentOf (biasedMagnitude m) + 7) < 2 ^ (j + 8) := by omega
    have := (Nat.pow_lt_pow_iff_right (by decide)).1 hlt
    rw [segmentOf]
    omega
  have hle : |m| ≤ 32635 := abs_le.2 (by omega)
  exact (abs_roundTrip_error hle).trans (pow_le_pow_right₀ (by decide) (by omega))

/-- Settles O18: the error is that of the midpoint of the cell, clipped integers share the extreme cell,
and a byte is found again from its midpoint (`encf_decf`). -/
theorem roundTripErrorBound : Obligations.RoundTripErrorBound := by
  refine ⟨fun m hsign hm => (roundTrip_error (abs_le.2 ⟨by omega, hm⟩)).1 hsign,
    fun m hsign hm => (roundTrip_error (abs_le.2 ⟨hm, by omega⟩)).2 hsign, ?_, ?_, ?_, ?_,
    fun b => encf_decf, ?_⟩
  · intro c hc m hm
    simp only [List.mem_cons, List.not_mem_nil, or_false] at hc
    rcases hc with rfl | rfl | rfl | rfl | rfl | rfl | rfl | rfl
    · exact abs_roundTrip_error_of_segment (j := 0) (by decide) hm
    · exact abs_roundTrip_error_of_segment (j := 1) (by decide) hm
    · exact abs_roundTrip_error_of_segment (j := 2) (by decide) hm
    · exact abs_roundTrip_error_of_segment (j := 3) (by decide) hm
    · exact abs_roundTrip_error_of_segment (j := 4) (by decide) hm
    · exact abs_roundTrip_error_of_segment (j := 5) (by decide) hm
    · exact abs_roundTrip_error_of_segment (j := 6) (by decide) hm
    · exact abs_roundTrip_error_of_segment (j := 7) (by decide) hm
  · rw [encf_zero, decf_zeros.1]
  · intro m hm
    rw [encf_of_clip_le hm.le, decf_extremes.1]
  · intro m hm
    rw [encf_of_le_neg_clip hm.le, decf_extremes.2]
  · rw [decf_zeros.2, encf_zero]

/-- The encoder gives the negative zero to -3, -2 and -1 only. -/
theorem encf_ne_negative_zero {m : Int} (hm : m < -3 ∨ 0 ≤ m) : encf m ≠ 0x7F#8 := by
  intro h
  have he := segmentOf_le m
  obtain ⟨hcell, hcell'⟩ := (isBiased_biasedMagnitude m).cellOf_range
  have hbyte : (encf m).toNat = 127 := congrArg BitVec.toNat h
  rw [encf_toNat_cell] at hbyte
  have hsign : m < 0 := by
    by_contra hsign
    rw [if_neg hsign] at hbyte
    omega
  rw [if_pos hsign] at hbyte
  have hseg : exponentOf (biasedMagnitude m) = 0 := by rw [← segmentOf]; omega
  have hfirst : cellOf (biasedMagnitude m) = 16 := by omega
  have hx := (cellOf_bounds (biasedMagnitude m)).2
  rw [hseg, hfirst, biasedMagnitude_eq] at hx
  omega

/-- Settles O19: a byte that survives decoding and encoding survives it here, and the negative zero
becomes the other code of the same value. -/
theorem secondPassChangesNoValue : Obligations.SecondPassChangesNoValue := by
  refine fun m => ⟨?_, fun hm => encf_decf (encf_ne_negative_zero hm)⟩
  by_cases hb : encf m = 0x7F#8
  · rw [hb, decf_zeros.2, encf_zero, decf_zeros.1]
  · rw [encf_decf hb]

/-- A mantissa has four bits, whatever the shift. -/
theorem mantissaOf_le (e0 x e : Nat) : mantissaOf e0 x e ≤ 15 := Nat.and_le_right

/-- The byte of the encoder under any `E0_SHIFT`. -/
theorem encfAt_toNat (e0 : Nat) (m : Int) : (encfAt e0 m).toNat = 255 -
    ((if m < 0 then 1 else 0) * 128 + segmentOf m * 16 +
      mantissaOf e0 (biasedMagnitude m) (segmentOf m)) := by
  have hsign : signFlag m = 0 ∨ signFlag m = 128 := by
    rw [signFlag_eq]
    split
    · exact .inr rfl
    · exact .inl rfl
  unfold encfAt
  rw [not8_toNat]
  show 255 - (packFields _ (segmentOf m) _).toNat = _
  rw [packFields_toNat _ _ _ hsign (segmentOf_le m) (mantissaOf_le _ _ _), signFlag_eq, segmentOf]
  congr 1
  split <;> omega

/-- Above segment 0 the parameter `E0_SHIFT` is not read. -/
theorem encfAt_of_segment_ne_zero (e0 : Nat) {m : Int} (h : segmentOf m ≠ 0) :
    encfAt e0 m = encf m := by
  have hmant : mantissaOf e0 (biasedMagnitude m) (segmentOf m) =
      mantissaOf 3 (biasedMagnitude m) (segmentOf m) := by
    rw [mantissaOf, mantissaOf, if_neg h, if_neg h]
  apply BitVec.eq_of_toNat_eq
  rw [encfAt_toNat, hmant]
  exact (encfAt_toNat 3 m).symm

/-- Segment 0 is the magnitudes up to 123. -/
theorem segmentOf_eq_zero_iff (m : Int) : segmentOf m = 0 ↔ m.natAbs ≤ 123 := by
  have hmag := biasedMagnitude_eq m
  constructor
  · intro h
    have hx : biasedMagnitude m < 2 ^ (segmentOf m + 8) := (isBiased_biasedMagnitude m).segment.2.2
    rw [h] at hx
    omega
  · intro h
    exact exponentOf_unique (by omega) (by omega) (by decide)

/-- In segment 0 the literal reading takes bits 7 to 4 of the biased magnitude, the leading bit among
them. -/
theorem mantissaOf_four {m : Int} (h : m.natAbs ≤ 123) :
    mantissaOf 4 (biasedMagnitude m) (segmentOf m) = (m.natAbs + 4) / 16 + 8 := by
  have hmod : biasedMagnitude m >>> 4 &&& 0x0F = biasedMagnitude m / 16 % 16 := by
    rw [Nat.shiftRight_eq_div_pow]
    exact Nat.and_two_pow_sub_one_eq_mod _ 4
  rw [(segmentOf_eq_zero_iff m).2 h, mantissaOf, if_pos rfl, hmod, biasedMagnitude_eq]
  omega

/-- The literal reading's byte in segment 0. -/
theorem encfAt_four_toNat {m : Int} (h : m.natAbs ≤ 123) : (encfAt 4 m).toNat =
    255 - ((if m < 0 then 1 else 0) * 128 + ((m.natAbs + 4) / 16 + 8)) := by
  rw [encfAt_toNat, mantissaOf_four h, (segmentOf_eq_zero_iff m).2 h, Nat.zero_mul,
    Nat.add_zero]

/-- This hardware's byte in segment 0, whose cells are 8 wide. -/
theorem encf_toNat_of_le {m : Int} (h : m.natAbs ≤ 123) : (encf m).toNat =
    255 - ((if m < 0 then 1 else 0) * 128 + (m.natAbs + 4) / 8) := by
  have hseg := (segmentOf_eq_zero_iff m).2 h
  have hcell : cellOf (biasedMagnitude m) = biasedMagnitude m / 8 := by
    rw [cellOf, ← segmentOf, hseg]
    rfl
  rw [encf_toNat_cell, hcell, hseg, biasedMagnitude_eq]
  omega

/-- R91: the two readings share a byte exactly from 116 on, the last cell of segment 0. -/
theorem encfAt_four_eq_encf_iff (m : Int) : encfAt 4 m = encf m ↔ 116 ≤ m.natAbs := by
  by_cases h : m.natAbs ≤ 123
  · rw [← BitVec.toNat_inj, encfAt_four_toNat h, encf_toNat_of_le h]
    split <;> omega
  · exact iff_of_true (encfAt_of_segment_ne_zero 4 (mt (segmentOf_eq_zero_iff m).1 h)) (by omega)

/-- R91: the literal reading leaves out the bytes of the lower half of segment 0. -/
theorem encfAt_four_lt (m : Int) : (encfAt 4 m).toNat < 0xF8 ∧
    ((encfAt 4 m).toNat < 0x78 ∨ 0x7F < (encfAt 4 m).toNat) := by
  have he := segmentOf_le m
  by_cases h : m.natAbs ≤ 123
  · rw [encfAt_four_toNat h]
    split <;> omega
  · have hseg := mt (segmentOf_eq_zero_iff m).1 h
    have hk := mantissaOf_le 4 (biasedMagnitude m) (segmentOf m)
    rw [encfAt_toNat]
    split <;> omega

/-- R91: the midpoint that the decoder gives for the literal reading's byte. -/
theorem decf_encfAt_four {m : Int} (h : m.natAbs ≤ 123) : decf (encfAt 4 m) =
    if m < 0 then -(8 * ((m.natAbs + 4) / 16 + 8) : Int)
      else (8 * ((m.natAbs + 4) / 16 + 8) : Int) := by
  have hbyte := encfAt_four_toNat h
  by_cases hsign : m < 0
  · rw [if_pos hsign] at hbyte
    rw [decf_of_toNat (s := 1) (e := 0) (by decide) (by decide) (by omega) hbyte, if_pos rfl,
      if_pos hsign]
    omega
  · rw [if_neg hsign] at hbyte
    rw [decf_of_toNat (s := 0) (e := 0) (by decide) (by decide) (by omega) hbyte,
      if_neg (by decide), if_neg hsign]
    omega

/-- Settles O20: the readings differ in segment 0 only, where both bytes are written out. -/
theorem literalReadingOfStepSix : Obligations.LiteralReadingOfStepSix := by
  refine ⟨fun m h => ?_, encfAt_four_eq_encf_iff, encfAt_four_lt, fun m h => ?_, by decide, by decide⟩
  · apply BitVec.eq_of_toNat_eq
    rw [encfAt_four_toNat h, BitVec.toNat_ofNat]
    split <;> omega
  · rw [decf_encfAt_four h, abs_le]
    split <;> omega

end Sys2Proof.Machine
end

section
/-! SUPPORT. The float-domain reference functions (R90) and the frame round trip (R104). -/

namespace Sys2Proof.Machine

/-- A quantiser has no choice where 32767 times its argument is an integer. -/
theorem IsQuantiser.eq_of_scaled {Q : ℝ → ℤ} (hQ : IsQuantiser Q) {s : ℝ} {n : ℤ}
    (h : Config.scaleIn * s = n) : Q s = n := by
  have hnear := hQ s
  rw [h, ← Int.cast_sub, ← Int.cast_abs] at hnear
  have hlt : |Q s - n| < 1 := by
    have : ((|Q s - n| : ℤ) : ℝ) < 1 := hnear.trans_lt (by norm_num)
    exact_mod_cast this
  exact sub_eq_zero.1 (Int.abs_lt_one_iff.1 hlt)

/-- Settles O21: at 0, 1, 2 and -1 every quantiser gives the same integer (`IsQuantiser.eq_of_scaled`),
and the encoder saturates on all but the first. -/
theorem floatExamplesUnderEveryTieRule : Obligations.FloatExamplesUnderEveryTieRule := by
  intro Q hQ
  have hzero : Q 0 = 0 := hQ.eq_of_scaled (by norm_num)
  have hone : Q 1 = 32767 := hQ.eq_of_scaled (by norm_num)
  have htwo : Q 2 = 65534 := hQ.eq_of_scaled (by norm_num)
  have hneg : Q (-1) = -32767 := hQ.eq_of_scaled (by norm_num)
  have hmax : encodeReal Q 1 = 0x80#8 := by rw [encodeReal, hone]; exact encf_of_clip_le (by decide)
  have hmin : encodeReal Q (-1) = 0x00#8 := by
    rw [encodeReal, hneg]; exact encf_of_le_neg_clip (by decide)
  have hsilence : encodeReal Q 0 = 0xFF#8 := by rw [encodeReal, hzero, encf_zero]
  refine ⟨hsilence, ?_, hmax, ?_, ?_, ?_⟩
  · rw [hsilence, decodeRational, decf_zeros.1, normalise]; norm_num
  · rw [encodeReal, htwo]; exact encf_of_clip_le (by decide)
  · rw [hmax, decodeRational, decf_extremes.1, normalise]; norm_num
  · rw [hmin, decodeRational, decf_extremes.2, normalise]; norm_num

/-- Settles O22: the error is the companding error of `Q s`, the quantiser's distance from 32767 times
the sample, and the sample's own multiple of 32768 - 32767, all divided by 32768. -/
theorem floatRoundTripBound : Obligations.FloatRoundTripBound := by
  intro Q s hQ hs
  have hcompand : |(decf (encf (Q s)) : ℝ) - Q s| ≤ 2 ^ (segmentOf (Q s) + 2) := by
    exact_mod_cast abs_roundTrip_error hs
  have hround : |(Q s : ℝ) - 32767 * s| ≤ 1 / 2 := by simpa using hQ s
  have hsplit : (decodeRational (encodeReal Q s) : ℝ) - s =
      ((decf (encf (Q s)) - Q s) + (Q s - 32767 * s) + -s) / 32768 := by
    simp only [decodeRational, encodeReal, normalise]
    push_cast
    ring
  rw [hsplit, abs_div, abs_of_pos (by norm_num : (0 : ℝ) < 32768)]
  refine div_le_div_of_nonneg_right ?_ (by norm_num)
  calc |((decf (encf (Q s)) : ℝ) - Q s) + (Q s - 32767 * s) + -s|
    _ ≤ |(decf (encf (Q s)) : ℝ) - Q s| + |(Q s : ℝ) - 32767 * s| + |-s| := abs_add_three _ _ _
    _ ≤ 2 ^ (segmentOf (Q s) + 2) + 1 / 2 + |s| := by rw [abs_neg]; linarith

/-- What the port can hold goes through unchanged, and beyond it the encoder saturates anyway. -/
theorem encf_saturateToPort (m : Int) : encf (saturateToPort m).toInt = encf m := by
  rw [saturateToPort, toBits16_toInt (by omega) (by omega)]
  by_cases hhi : 32767 < m
  · rw [encf_of_clip_le (m := m) (by omega), encf_of_clip_le (by omega)]
  · by_cases hlo : m < -32768
    · rw [encf_of_le_neg_clip (m := m) (by omega), encf_of_le_neg_clip (by omega)]
    · rw [min_eq_right (by omega), max_eq_right (by omega)]

/-- Settles O23: the byte does not change (`encf_saturateToPort`), and ENC emits it. -/
theorem saturatingToThePortKeepsTheByte : Obligations.SaturatingToThePortKeepsTheByte := by
  intro m s
  rw [exec_enc_eq, encf_saturateToPort]
  rfl

/-- A frame that is decoded and encoded comes back but for the negative zero. -/
theorem encodeFrame_decodeFrame (f : Frame) :
    encodeFrame (decodeFrame f) = f.map fun b => if b = 0x7F#8 then 0xFF#8 else b := by
  have hlane (b : Byte) : encf (toBits16 (decf b)).toInt = if b = 0x7F#8 then 0xFF#8 else b := by
    rw [toBits16_decf_toInt]
    split
    · next hb => rw [hb, decf_zeros.2, encf_zero]
    · next hb => exact encf_decf hb
  refine List.ext_getElem? fun n => ?_
  rw [encodeFrame_getElem?, decodeFrame_getElem?, Option.map_map, List.getElem?_map]
  exact congrArg (Option.map · f[n]?) (funext hlane)

/-- Settles O27: lane by lane it is the round trip of a sample or of a byte. -/
theorem frameRoundTrip : Obligations.FrameRoundTrip := by
  refine ⟨fun blk s => ?_, fun f s => ?_⟩
  · refine ⟨encodeFrame blk, decodeFrame (encodeFrame blk), exec_fenc_eq s blk, exec_fdec_eq s _,
      (decodeFrame_length _).trans (encodeFrame_length blk), fun n w hw => ?_⟩
    have hvalue := toBits16_decf_toInt (encf w.toInt)
    refine ⟨toBits16 (decf (encf w.toInt)), ?_, hvalue, fun hclip => ?_⟩
    · rw [decodeFrame_getElem?, encodeFrame_getElem?, hw]
      rfl
    · rw [hvalue]
      exact abs_roundTrip_error hclip
  · refine ⟨decodeFrame f, exec_fdec_eq s f, ?_⟩
    rw [← encodeFrame_decodeFrame]
    exact exec_fenc_eq s _

end Sys2Proof.Machine
end
